-- ==== Sys2Proof/Word.lean ====
section
/-! DEFINITION. The word type of the PrevacSerial codec block and its plainest arithmetic.

Every field of a Message and every offset of a buffer holds one byte (R20, R50, R53); every value is
unsigned (R10). -/

namespace Sys2Proof

/-- One byte: the width of every Message field and of every buffer element (R20, R50). -/
abbrev Byte := BitVec 8

/-- `Σ s` of R10: the sum of the elements as natural numbers, 0 for the empty sequence. -/
def byteSum (bs : List Byte) : Nat := (bs.map BitVec.toNat).sum

end Sys2Proof
end

