-- ==== Sys2Proof/Config.lean ====
section
/-! DEFINITION. What an instance of the block fixes: the parameters of R5, R6 and R7.

The open parameters of R8 (LEN_IN_W, ARG_CAP, RX_CAP) have no constant here: the model takes natural
numbers and unbounded buffers in their place, as R8 prefers. The block computes no open value (00_scope.md
section 9, item 6), so there is no free value either. -/

namespace Sys2Proof

/-- HEADER_CONST (R5, R73). -/
def Config.headerConst : Byte := 0xAA#8

/-- MAX_PAYLOAD (R5). -/
def Config.maxPayload : Nat := 255

/-- FIXED_FIELDS (R5): the bytes of a frame before the payload. -/
def Config.fixedFields : Nat := 7

/-- CHECKSUM_BYTES (R5): the bytes of a frame after the payload. -/
def Config.checksumBytes : Nat := 1

/-- FRAME_OVERHEAD (R5): "Total frame length = 8 + dataLen bytes". -/
def Config.frameOverhead : Nat := Config.fixedFields + Config.checksumBytes

/-- MIN_FRAME_LEN (R7): 8, as 90_conflicts.md C2 settles it. DESIGN CHOICE of the spec (D8), log entry 2. -/
def Config.minFrameLen : Nat := 8

/-- TX_CAP (R7): the capacity of the transmit buffer, MAX_FRAME_LEN of R6. -/
def Config.txCap : Nat := Config.frameOverhead + Config.maxPayload

/-- The two device classes of "deviceGroup 0x91/0xA1 depending on device class" (R44, D14). The source does
not name them (91_not_in_source.md N15); the names here say only in which order it lists their values. -/
inductive DeviceClass
  | first
  | second
deriving DecidableEq, Repr

/-- The `deviceGroup` of the default constant for an instance built for a device class (R7, R44). -/
def DeviceClass.group : DeviceClass → Byte
  | .first => 0x91#8
  | .second => 0xA1#8

/-- The class this instance is built for: DEFAULT_DEVICE_GROUP = 0x91 (R7). DESIGN CHOICE, log entry 3. -/
def Config.deviceClass : DeviceClass := .first

/-- DEFAULT_DEVICE_ADDR (R5). -/
def Config.defaultDeviceAddr : Byte := 0xC8#8

/-- DEFAULT_LOGIC_GROUP (R5). -/
def Config.defaultLogicGroup : Byte := 0xC8#8

/-- DEFAULT_DRIVER_ADDR (R5). -/
def Config.defaultDriverAddr : Byte := 0x01#8

/-- DEFAULT_FUNCTION_CODE (R7): the spec's own completion of the default constant (D14). -/
def Config.defaultFunctionCode : Byte := 0x00#8

end Sys2Proof
end

