-- ==== Sys2Proof/Syntax.lean ====
section
/-! DEFINITION. The instructions, one constructor per row of spec/opcode_table.json: the block's eight
commands (R80) and the wire frame (R70, R71); and the two forms in which the world outside presents one to
the block. -/

namespace Sys2Proof

/-- The nine fields of a frame, in wire order (R70, R71). -/
structure WireFrame where
  header       : Byte
  dataLen      : Byte
  deviceAddr   : Byte
  deviceGroup  : Byte
  logicGroup   : Byte
  driverAddr   : Byte
  functionCode : Byte
  payload      : List Byte
  checksum     : Byte
deriving DecidableEq, Repr

/-- The rows of the opcode table. The operands of CONSTRUCT are those of R31; the argument buffer and the
receive buffer are state. `frame` is the table's FRAME row, "not an instruction: the wire format ENCODE
writes and DECODE validates": here it stands for one frame handed over by the transport (log entry 1). -/
inductive Instr
  | loadDefault
  | construct (hdr : Byte) (lenIn : Nat) (dev grp log drv fn ckSeed : Byte)
  | setPayloadText
  | setPayloadHex
  | checksum
  | wireSize
  | encode
  | decode
  | frame (f : WireFrame)
deriving DecidableEq, Repr

/-- The command inputs of R31 other than the buffers: the 4-bit CMD code and the operand lines, each on an
input of its own and not packed into the code (R81). `lenIn` is a natural number (R8, D9). -/
structure CommandLines where
  cmd    : BitVec 4
  hdr    : Byte
  lenIn  : Nat
  dev    : Byte
  grp    : Byte
  log    : Byte
  drv    : Byte
  fn     : Byte
  ckSeed : Byte
deriving DecidableEq, Repr

/-- A command code with every operand line at zero. -/
def CommandLines.ofCode (cmd : BitVec 4) : CommandLines :=
  { cmd, hdr := 0, lenIn := 0, dev := 0, grp := 0, log := 0, drv := 0, fn := 0, ckSeed := 0 }

/-- What the world outside can present to the block: a command (R30, R31), or the byte sequence one
`receive` of the transport returned (R33, R36). -/
inductive Presented
  | command (lines : CommandLines)
  | wire (bytes : List Byte)
deriving DecidableEq, Repr

/-- A frame as bytes, in ascending offset order (R51, R70). -/
def WireFrame.bytes (f : WireFrame) : List Byte :=
  [f.header, f.dataLen, f.deviceAddr, f.deviceGroup, f.logicGroup, f.driverAddr, f.functionCode]
    ++ f.payload ++ [f.checksum]

end Sys2Proof
end

