-- ==== Sys2Proof/WellFormed.lean ====
section
/-! DEFINITION. Which instructions are well formed. The operands of the eight commands are unrestricted
(R78, R81); a frame has the three constraints of R71. -/

namespace Sys2Proof

/-- The header of a frame is 0xAA (R71, R73). -/
def WireFrame.headerOk (f : WireFrame) : Bool := f.header == Config.headerConst

/-- `dataLen` counts the payload bytes: 8 + L is the frame's length (R71, R72). -/
def WireFrame.lengthOk (f : WireFrame) : Bool := f.payload.length == f.dataLen.toNat

/-- The sum modulo 256 of the frame bytes at offsets 1 to 6 + L (R74). -/
def WireFrame.sum (f : WireFrame) : Byte :=
  BitVec.ofNat 8 (byteSum ([f.dataLen, f.deviceAddr, f.deviceGroup, f.logicGroup, f.driverAddr, f.functionCode]
    ++ f.payload))

/-- The checksum byte is the recomputed sum (R71, R74, R78). -/
def WireFrame.checksumOk (f : WireFrame) : Bool := f.checksum == f.sum

/-- Well-formedness of an instruction: no check for a command, the constraints of R71 for a frame. -/
def Instr.wellFormed : Instr → Bool
  | .loadDefault => true
  | .construct .. => true
  | .setPayloadText => true
  | .setPayloadHex => true
  | .checksum => true
  | .wireSize => true
  | .encode => true
  | .decode => true
  | .frame f => f.headerOk && f.lengthOk && f.checksumOk

end Sys2Proof
end

