-- ==== Sys2Proof/Decode.lean ====
section
/-! DEFINITION. Decoding what is presented to the block into an instruction, and the encoder. A command is
told by its 4-bit code (R80); its operands stand on their own lines (R81). A byte sequence is the FRAME row
when it meets the constraints of R71. -/

namespace Sys2Proof

/-- Why nothing in the opcode table matches. -/
inductive DecodeError
  /-- CMD is 0x0 or 0x9 to 0xF (R82). -/
  | reservedCommand (code : BitVec 4)
  /-- Fewer bytes than the smallest frame (R72). -/
  | frameTooShort
  /-- The byte at offset 0 is not 0xAA (R73). -/
  | frameHeader
  /-- The length is not 8 + L (R71). -/
  | frameLength
  /-- The last byte is not the sum of R74. -/
  | frameChecksum
deriving DecidableEq, Repr

/-- The command codes of R80 and the operand lines each command reads (R31). -/
def decodeCommand (c : CommandLines) : Except DecodeError Instr :=
  match c.cmd.toNat with
  | 0x1 => .ok .loadDefault
  | 0x2 => .ok (.construct c.hdr c.lenIn c.dev c.grp c.log c.drv c.fn c.ckSeed)
  | 0x3 => .ok .setPayloadText
  | 0x4 => .ok .setPayloadHex
  | 0x5 => .ok .checksum
  | 0x6 => .ok .wireSize
  | 0x7 => .ok .encode
  | 0x8 => .ok .decode
  | _ => .error (.reservedCommand c.cmd)

/-- Reading a byte sequence as the FRAME row, by the offsets of R71: the payload is all that stands between
offset 7 and the last byte. -/
def decodeFrame : List Byte → Except DecodeError Instr
  | h :: l :: dev :: grp :: log :: drv :: fn :: b :: bs =>
    let f : WireFrame :=
      { header := h, dataLen := l, deviceAddr := dev, deviceGroup := grp, logicGroup := log, driverAddr := drv,
        functionCode := fn, payload := (b :: bs).dropLast, checksum := (b :: bs).getLastD 0 }
    if !f.headerOk then .error .frameHeader
    else if !f.lengthOk then .error .frameLength
    else if !f.checksumOk then .error .frameChecksum
    else .ok (.frame f)
  | _ => .error .frameTooShort

/-- The decoder, total on whatever is presented. -/
def decode : Presented → Except DecodeError Instr
  | .command c => decodeCommand c
  | .wire bs => decodeFrame bs

/-- The encoder: the code of R80 with the operands on their lines (R81) and zero on the lines a command does
not read; a frame is its bytes (R70). -/
def encode : Instr → Presented
  | .loadDefault => .command (.ofCode 0x1)
  | .construct hdr lenIn dev grp log drv fn ckSeed =>
    .command { cmd := 0x2, hdr, lenIn, dev, grp, log, drv, fn, ckSeed }
  | .setPayloadText => .command (.ofCode 0x3)
  | .setPayloadHex => .command (.ofCode 0x4)
  | .checksum => .command (.ofCode 0x5)
  | .wireSize => .command (.ofCode 0x6)
  | .encode => .command (.ofCode 0x7)
  | .decode => .command (.ofCode 0x8)
  | .frame f => .wire f.bytes

/-- The low `n` bytes of a number, least significant first. -/
def bytesOfWord : Nat → Nat → List Byte
  | 0, _ => []
  | n + 1, w => BitVec.ofNat 8 w :: bytesOfWord n (w / 256)

/-- A word of the opcode table as it is presented to the block. The table gives a command 4 bits, so a word
below 16 is a CMD code with every operand line at zero; any other word is a sequence of wire bytes, the first
one lowest, with zero bytes up to the length 8 + L its second byte claims. -/
def tableWord (nbits w : Nat) : Presented :=
  let v := w % 2 ^ nbits
  if v < 16 then .command (.ofCode (BitVec.ofNat 4 v))
  else .wire (bytesOfWord (max (nbits / 8) (8 + v / 256 % 256)) v)

/-- The instruction the decoder reads from a word of the opcode table. -/
def decodeTableWord (nbits w : Nat) : Option Instr := (decode (tableWord nbits w)).toOption

end Sys2Proof
end

