-- ==== Sys2Proof/Machine/State.lean ====
section
/-! DEFINITION. The state of the codec block as plain data: the Message register M, the status, result and
fault state, the transmit buffer, the buffers the host owns, the output of the observer and the host's moves
still to come. Beside it, why a step can stop, and the state after reset. -/

namespace Sys2Proof.Machine

/-- The seven error kinds (R160). -/
inductive ErrorKind
  | tooShort
  | badHeader
  | lengthMismatch
  | outOfBounds
  | checksumMismatch
  | invalidHexToken
  | bufferOverflow
deriving DecidableEq, Repr

/-- A Message (R20): eight one-byte fields and the payload store PAY[0..254]. `fn` is FUN, a word Lean keeps
for itself. -/
structure Message where
  hdr : Byte
  len : Byte
  dev : Byte
  grp : Byte
  log : Byte
  drv : Byte
  fn  : Byte
  pay : Vector Byte 255
  ck  : Byte
deriving DecidableEq, Repr

/-- A byte-addressed buffer with offsets from 0 (R50), as a list of (offset, byte) pairs in one canonical
form: offsets strictly rising, and no entry equal to `unlistedByte`. -/
abbrev Memory := List Host.Cell

/-- What an unlisted offset of a buffer reads as. DESIGN CHOICE, unsafe, log entry 4: the spec gives no contents for a
byte nothing has written. -/
def unlistedByte : Byte := 0

/-- The observer's event (R178): the kind of the error and the received bytes as they were given. -/
structure RejectEvent where
  kind  : ErrorKind
  bytes : List Byte
deriving DecidableEq, Repr

/-- A move of the world outside the block, between commands (R58, R61). -/
inductive HostMove
  /-- Present a command with its operand lines, or the bytes one `receive` returned (R30, R33). -/
  | present (p : Presented)
  /-- Write the argument buffer, or declare the argument absent (R32). -/
  | argument (bytes : Option (List Byte))
  /-- Copy TXB[0..TXLEN) to RXB and TXLEN to RXLEN (R89, `decode(encode(m))`). -/
  | loopBack
  /-- Reset the block (R190, R191). -/
  | reset
deriving DecidableEq, Repr

/-- The state. `m`, `status`, `res`, `fatal`, `txb` and `txLen` are the block's (R20, R34, R37 to R39);
`rxb`, `rxLen`, `arg`, `argLen` and `argPresent` are inputs the host owns (R32, R33); `event` is the output of
the observer for the last command (R178, log entry 5); `host` holds the host's moves still to come, the first
next: the model's own field (log entry 6), since the block stores no command stream (R63). -/
structure State where
  m          : Message
  status     : BitVec 3
  res        : BitVec 9
  fatal      : Bool
  txb        : Memory
  txLen      : BitVec 9
  rxb        : Memory
  rxLen      : Nat
  arg        : Memory
  argLen     : Nat
  argPresent : Bool
  event      : Option RejectEvent
  host       : List HostMove
deriving DecidableEq, Repr

/-- How a step can end in a fault. -/
inductive Fault
  /-- A checked write fell at or above the 263 bytes of TXB (R50, TX_CAP): an offset the spec says does not
  exist. Raised by `checkedWrite`, for ENCODE only. Safe: the run stops. By R57 it cannot happen, since the
  computed capacity is at most 263. -/
  | outsideTransmitBuffer (offset : Nat)
deriving DecidableEq, Repr

/-- Why a step can have no meaning. -/
inductive Refusal
  /-- An arm of `exec` whose instruction has no meaning yet. Safe. -/
  | notModelled (mnemonic : String)
  /-- CMD is a reserved code (R82). Raised by a step whose command does not decode. Safe: "A model should give
  such a step no meaning". -/
  | reservedCommand (code : BitVec 4)
  /-- A command while FATAL = 1 (R170). Raised by every command. Safe: "only reset clears it". -/
  | fatalStop
  /-- The host presents nothing: its moves are used up (log entry 6). Raised by `step`. Safe. -/
  | idle
deriving DecidableEq, Repr

/-- The default constant of an instance built for a device class, with its checksum (R44). -/
def Message.default (c : DeviceClass) : Message :=
  { hdr := Config.headerConst
    len := 0
    dev := Config.defaultDeviceAddr
    grp := c.group
    log := Config.defaultLogicGroup
    drv := Config.defaultDriverAddr
    fn  := Config.defaultFunctionCode
    pay := Vector.replicate 255 0
    ck  := BitVec.ofNat 8 (byteSum [0, Config.defaultDeviceAddr, c.group, Config.defaultLogicGroup,
      Config.defaultDriverAddr, Config.defaultFunctionCode]) }

/-- The state after reset (R44, R190). The values of the host's inputs are DESIGN CHOICE, log entry 4: R44
gives them none. -/
def State.reset : State :=
  { m          := Message.default Config.deviceClass
    status     := 0
    res        := 0
    fatal      := false
    txb        := []
    txLen      := 0
    rxb        := []
    rxLen      := 0
    arg        := []
    argLen     := 0
    argPresent := false
    event      := none
    host       := [] }

end Sys2Proof.Machine
end

