-- ==== Sys2Proof/Machine/Flags.lean ====
section
/-! DEFINITION. The codes of STATUS, the block's only flag-like state beside FATAL (R40). -/

namespace Sys2Proof.Machine

/-- The status code of an error kind (R161). -/
def ErrorKind.code : ErrorKind → BitVec 3
  | .tooShort => 1
  | .badHeader => 2
  | .lengthMismatch => 3
  | .outOfBounds => 4
  | .checksumMismatch => 5
  | .invalidHexToken => 6
  | .bufferOverflow => 7

/-- The status code of success (R161). -/
def statusOk : BitVec 3 := 0

/-- The errors that reject a frame, which the observer is told of: the five of DECODE (R178). -/
def ErrorKind.rejectsFrame : ErrorKind → Bool
  | .tooShort => true
  | .badHeader => true
  | .lengthMismatch => true
  | .outOfBounds => true
  | .checksumMismatch => true
  | .invalidHexToken => false
  | .bufferOverflow => false

/-- The one error kind that is not recoverable (R160, R161). -/
def ErrorKind.isFatal : ErrorKind → Bool
  | .tooShort => false
  | .badHeader => false
  | .lengthMismatch => false
  | .outOfBounds => false
  | .checksumMismatch => false
  | .invalidHexToken => false
  | .bufferOverflow => true

end Sys2Proof.Machine
end

