-- ==== Sys2Proof/Machine/Ops.lean ====
section
/-! DEFINITION. The shared operations: the buffers and their checked accesses, the checksum and the frame of a
Message, accepting a command, completing it, and taking an error. -/

namespace Sys2Proof.Machine

/-! ### Buffers -/

/-- The byte at an offset. -/
def Memory.read : Memory → Nat → Byte
  | [], _ => unlistedByte
  | (k, b) :: rest, a => if a = k then b else Memory.read rest a

/-- A new front entry, left out where it says what an unlisted offset says. -/
def Memory.cons (a : Nat) (v : Byte) (rest : Memory) : Memory :=
  if v = unlistedByte then rest else (a, v) :: rest

/-- Write one byte, keeping the canonical form. -/
def Memory.write : Memory → Nat → Byte → Memory
  | [], a, v => Memory.cons a v []
  | (k, b) :: rest, a, v =>
    if a < k then Memory.cons a v ((k, b) :: rest)
    else if a = k then Memory.cons a v rest
    else (k, b) :: Memory.write rest a v

/-- `MemRead(B, off, n)` of R11: the bytes at `off .. off+n-1`, in ascending offset order. -/
def Memory.load (mem : Memory) (off : Nat) : Nat → List Byte
  | 0 => []
  | n + 1 => mem.read off :: Memory.load mem (off + 1) n

/-- `MemWrite(B, off, n, v)` of R11 for the whole sequence `v`. -/
def Memory.store (mem : Memory) (off : Nat) : List Byte → Memory
  | [] => mem
  | b :: bs => Memory.store (mem.write off b) (off + 1) bs

/-- Offsets strictly rise, from `lo` on, and no entry equals what an unlisted offset reads as. -/
def Memory.wfFrom (lo : Nat) : Memory → Bool
  | [] => true
  | (k, b) :: rest => decide (lo ≤ k) && (b != unlistedByte) && Memory.wfFrom (k + 1) rest

/-- The canonical form. -/
def Memory.wf (mem : Memory) : Bool := Memory.wfFrom 0 mem

/-- ARG[0..ARGLEN) (R32). -/
def State.argBytes (s : State) : List Byte := s.arg.load 0 s.argLen

/-- RXB[0..RXLEN) (R33). -/
def State.rxBytes (s : State) : List Byte := s.rxb.load 0 s.rxLen

/-- TXB[0..TXLEN), the encoded frame (R34). -/
def State.txFrame (s : State) : List Byte := s.txb.load 0 s.txLen.toNat

/-! ### The Message -/

/-- PAY[i]; an index above 254 names no byte of the store and reads as 0. -/
def Message.payAt (m : Message) (i : Nat) : Byte := m.pay.toList.getD i 0

/-- PAY[0..LEN), the payload (R24). -/
def Message.payload (m : Message) : List Byte := m.pay.toList.take m.len.toNat

/-- `Sum(m)` (R100), on natural numbers as R110 asks. -/
def Message.sum (m : Message) : Byte :=
  BitVec.ofNat 8 (byteSum ([m.len, m.dev, m.grp, m.log, m.drv, m.fn] ++ m.payload))

/-- CK <- Sum(M) (R25). -/
def Message.seal (m : Message) : Message := { m with ck := m.sum }

/-- `wireSize()`: 7 + dataLen + 1, without wrap (R72). -/
def Message.wireSize (m : Message) : Nat := Config.frameOverhead + m.len.toNat

/-- `Frame(m)` (R131). -/
def Message.frame (m : Message) : List Byte :=
  [m.hdr, m.len, m.dev, m.grp, m.log, m.drv, m.fn] ++ m.payload ++ [m.ck]

/-- A payload store that holds `bs` from index 0 and zero bytes after it (R102, R103, R140). -/
def filledStore (bs : List Byte) : Vector Byte 255 := Vector.ofFn fun i => bs.getD i 0

/-- The store with the indices below `n` replaced by `bs`, zero-padded, and the others as they were (R105). -/
def overwrittenStore (pay : Vector Byte 255) (n : Nat) (bs : List Byte) : Vector Byte 255 :=
  Vector.ofFn fun i => if i < n then bs.getD i 0 else pay[i]

/-! ### Commands -/

/-- A command is accepted only while FATAL = 0 (R108, R170). -/
def State.accepting (s : State) (result : Host.Outcome State Fault Refusal) : Host.Outcome State Fault Refusal :=
  if s.fatal then .refused .fatalStop else result

/-- The end of a command without an error: STATUS 0 (R108, R161), and no event. -/
def State.complete (s : State) : State := { s with status := statusOk, event := none }

/-- Taking an error, the block's whole "trap entry" (R172): STATUS receives the code; an error of DECODE emits
the reject event (R178); the fatal kind clears TXLEN and sets FATAL (R168). Nothing else changes. There is no
return from it: the next command is simply accepted (R173). -/
def State.takeError (s : State) (k : ErrorKind) : State :=
  { s with
    status := k.code
    event  := if k.rejectsFrame then some { kind := k, bytes := s.rxBytes } else none
    txLen  := if k.isFatal then 0 else s.txLen
    fatal  := s.fatal || k.isFatal }

/-! ### The cursor -/

/-- `CheckedRead(OFF, n)` (R56): the bytes and the advanced cursor. Natural-number arithmetic, no wrap. -/
def checkedRead (rx : Memory) (rxLen off n : Nat) : Except ErrorKind (List Byte × Nat) :=
  if off + n ≤ rxLen then .ok (rx.load off n, off + n) else .error .outOfBounds

/-- The checked read of a one-byte field. -/
def checkedReadByte (rx : Memory) (rxLen off : Nat) : Except ErrorKind (Byte × Nat) := do
  let (v, off) ← checkedRead rx rxLen off 1
  return (v.headD 0, off)

/-- The encoder's cursor: the offset OFF of R41 and the buffer written so far. -/
structure TxCursor where
  off : Nat
  txb : Memory
deriving DecidableEq, Repr

/-- Why a checked write stops: past the computed capacity (R57), or outside TXB. -/
inductive WriteStop
  | overflow
  | outside (offset : Nat)
deriving DecidableEq, Repr

/-- `CheckedWrite(OFF, v)` (R57). The second test is R50's size of TXB: R57 says it cannot fail. -/
def checkedWrite (cap : Nat) (c : TxCursor) (v : Byte) : Except WriteStop TxCursor :=
  if c.off + 1 ≤ cap then
    if c.off < Config.txCap then .ok { off := c.off + 1, txb := c.txb.write c.off v } else .error (.outside c.off)
  else .error .overflow

/-- One checked write after another, in order. -/
def checkedWriteAll (cap : Nat) : TxCursor → List Byte → Except WriteStop TxCursor
  | c, [] => .ok c
  | c, v :: vs => do
    let c ← checkedWrite cap c v
    checkedWriteAll cap c vs

end Sys2Proof.Machine
end

