-- ==== Sys2Proof/Machine/Operands.lean ====
section
/-! DEFINITION. How operands are assembled: the saturated lengths (R76, R77) and the hex-token text of
SET_PAYLOAD_HEX (R84 to R86, R104). -/

namespace Sys2Proof.Machine

/-- The clamp of a length: replaced by 255 above 255, not reduced modulo 256 (R22, R76). -/
def clampLength (n : Nat) : Nat := min n Config.maxPayload

/-- The bytes CONSTRUCT copies for a clamped length `len`: `min(len, ARGLEN)` of them, none where the source
is absent (R77). -/
def State.sourceBytes (s : State) (len : Nat) : List Byte :=
  if s.argPresent then s.arg.load 0 (min len s.argLen) else []

/-- The six whitespace bytes of R84. -/
def isSpace (b : Byte) : Bool := b == 0x20#8 || (decide (0x09 ≤ b.toNat) && decide (b.toNat ≤ 0x0D))

/-- The rest of the tokens of a text (R84), where `cur` is what has been read of the token under way. -/
def tokensFrom (cur : List Byte) : List Byte → List (List Byte)
  | [] => if cur.isEmpty then [] else [cur]
  | b :: bs =>
    if isSpace b then (if cur.isEmpty then tokensFrom [] bs else cur :: tokensFrom [] bs)
    else tokensFrom (cur ++ [b]) bs

/-- The tokens of a text: its maximal runs of bytes that are not whitespace (R84). -/
def tokens (text : List Byte) : List (List Byte) := tokensFrom [] text

/-- `digit` of R85, on the ASCII codes of the hexadecimal digits of either case. -/
def hexDigit? (b : Byte) : Option Nat :=
  let n := b.toNat
  if 0x30 ≤ n ∧ n ≤ 0x39 then some (n - 0x30)
  else if 0x61 ≤ n ∧ n ≤ 0x66 then some (n - 0x61 + 10)
  else if 0x41 ≤ n ∧ n ≤ 0x46 then some (n - 0x41 + 10)
  else none

/-- `16 × digit(first) + digit(second)` (R85). -/
def hexPair? (a b : Byte) : Option Byte := do
  let hi ← hexDigit? a
  let lo ← hexDigit? b
  return BitVec.ofNat 8 (16 * hi + lo)

/-- The value of a token, none where it does not match the grammar of R85: two hexadecimal digits, with
`0x` or `0X` allowed before them. -/
def tokenValue? : List Byte → Option Byte
  | [a, b] => hexPair? a b
  | [z, x, a, b] => if z = 0x30#8 ∧ (x = 0x78#8 ∨ x = 0x58#8) then hexPair? a b else none
  | _ => none

/-- The values of tokens in order, none as soon as one is malformed (R86, R104). -/
def tokenValues? : List (List Byte) → Option (List Byte)
  | [] => some []
  | t :: ts => do
    let v ← tokenValue? t
    let vs ← tokenValues? ts
    return v :: vs

/-- `ParseHex` (R104). The whole text is parsed; nothing is truncated here. -/
def parseHex (text : List Byte) : Option (List Byte) := tokenValues? (tokens text)

end Sys2Proof.Machine
end

