-- ==== Sys2Proof/Machine/Building.lean ====
section
/-! DEFINITION. The commands that build a Message: LOAD_DEFAULT and CONSTRUCT. -/

namespace Sys2Proof.Machine

/-- LOAD_DEFAULT (R101). The device group is the instance's (log entry 3). -/
def execLoadDefault (s : State) : Host.Outcome State Fault Refusal :=
  s.accepting <| .next <| State.complete
    { s with
      m := Message.seal
        { hdr := Config.headerConst
          len := 0
          dev := Config.defaultDeviceAddr
          grp := Config.deviceClass.group
          log := Config.defaultLogicGroup
          drv := Config.defaultDriverAddr
          fn  := Config.defaultFunctionCode
          pay := filledStore []
          ck  := 0 } }

/-- CONSTRUCT (R102): the length saturates, the header is stored as given, `ckSeed` is not read. -/
def execConstruct (hdr : Byte) (lenIn : Nat) (dev grp log drv fn _ckSeed : Byte) (s : State) :
    Host.Outcome State Fault Refusal :=
  let len := clampLength lenIn
  s.accepting <| .next <| State.complete
    { s with
      m := Message.seal
        { hdr, len := BitVec.ofNat 8 len, dev, grp, log, drv, fn
          pay := filledStore (s.sourceBytes len)
          ck  := 0 } }

end Sys2Proof.Machine
end

