-- ==== Sys2Proof/Machine/Decoding.lean ====
section
/-! DEFINITION. DECODE: validating the received bytes in the order of R140 and R148 and, when every check has
passed, loading them into M. -/

namespace Sys2Proof.Machine

/-- The fields DECODE extracts before anything is committed (R42, R145). -/
structure Staged where
  dev : Byte
  grp : Byte
  log : Byte
  drv : Byte
  fn  : Byte
  pay : List Byte
  ck  : Byte
deriving DecidableEq, Repr

/-- Step 5 (R145): seven checked reads, the cursor starting at 2. -/
def extractFields (rx : Memory) (rxLen : Nat) (len : Byte) : Except ErrorKind Staged := do
  let (dev, off) ← checkedReadByte rx rxLen 2
  let (grp, off) ← checkedReadByte rx rxLen off
  let (log, off) ← checkedReadByte rx rxLen off
  let (drv, off) ← checkedReadByte rx rxLen off
  let (fn, off) ← checkedReadByte rx rxLen off
  let (pay, off) ← checkedRead rx rxLen off len.toNat
  let (ck, _) ← checkedReadByte rx rxLen off
  return { dev, grp, log, drv, fn, pay, ck }

/-- The checksum recomputed over the extracted fields (R146). -/
def Staged.sum (x : Staged) (len : Byte) : Byte :=
  BitVec.ofNat 8 (byteSum ([len, x.dev, x.grp, x.log, x.drv, x.fn] ++ x.pay))

/-- Step 7 (R147): the Message M receives; the store above the payload is zero. -/
def Staged.commit (x : Staged) (hdr len : Byte) : Message :=
  { hdr, len, dev := x.dev, grp := x.grp, log := x.log, drv := x.drv, fn := x.fn
    pay := filledStore x.pay
    ck := x.ck }

/-- `decode(bytes) -> Message | ParseError` (R140) with the threshold of step 1 as an argument, which R7
restricts to 8 and 9: the first failure in the order of R148, or the Message. -/
def validateFrame (minLen : Nat) (rx : Memory) (rxLen : Nat) : Except ErrorKind Message :=
  if rxLen < minLen then .error .tooShort else
  let h := rx.read 0
  if h ≠ Config.headerConst then .error .badHeader else
  let len := rx.read 1
  if rxLen ≠ Config.fixedFields + len.toNat + Config.checksumBytes then .error .lengthMismatch else
  match extractFields rx rxLen len with
  | .error k => .error k
  | .ok x => if x.sum len ≠ x.ck then .error .checksumMismatch else .ok (x.commit h len)

/-- DECODE (R140). M is written only when every check has passed (D12). -/
def execDecode (s : State) : Host.Outcome State Fault Refusal :=
  s.accepting <|
    match validateFrame Config.minFrameLen s.rxb s.rxLen with
    | .error k => .next (s.takeError k)
    | .ok m => .next <| State.complete { s with m := m }

end Sys2Proof.Machine
end

