-- ==== Sys2Proof/Machine/Encoding.lean ====
section
/-! DEFINITION. ENCODE: the frame of M into the transmit buffer. -/

namespace Sys2Proof.Machine

/-- ENCODE (R130): the bytes of the frame, each by a checked write against the computed capacity, from offset
0. The checksum written is the cached field and the header is not tested (R131). A failed write leaves TXB as
it was (R172, log entry 7). -/
def execEncode (s : State) : Host.Outcome State Fault Refusal :=
  let cap := s.m.wireSize
  s.accepting <|
    match checkedWriteAll cap { off := 0, txb := s.txb } s.m.frame with
    | .ok c => .next <| State.complete { s with txb := c.txb, txLen := BitVec.ofNat 9 cap }
    | .error .overflow => .next (s.takeError .bufferOverflow)
    | .error (.outside off) => .fault (.outsideTransmitBuffer off)

end Sys2Proof.Machine
end

