-- ==== Sys2Proof/Machine/HostPort.lean ====
section
/-! DEFINITION. What the world outside does between commands (R58, R61): the host fills the buffers it owns,
the transport hands over received bytes, reset. And the meaning of the FRAME row, which is such a hand-over. -/

namespace Sys2Proof.Machine

/-- The next move of the host, and the state with that move taken off. -/
def State.fetch (s : State) : Option (HostMove × State) :=
  match s.host with
  | [] => none
  | move :: rest => some (move, { s with host := rest })

/-- The bytes one `receive` returned are placed in RXB from offset 0, and their count in RXLEN (R33). Offsets
of RXB above them keep what they held. -/
def State.placeReceived (s : State) (bytes : List Byte) : State :=
  { s with rxb := s.rxb.store 0 bytes, rxLen := bytes.length }

/-- The host writes the argument buffer and its length, or declares the argument absent (R32). -/
def State.placeArgument (s : State) : Option (List Byte) → State
  | some bytes => { s with arg := s.arg.store 0 bytes, argLen := bytes.length, argPresent := true }
  | none => { s with argPresent := false }

/-- The host copies TXB[0..TXLEN) to RXB and TXLEN to RXLEN (R89). -/
def State.loopBack (s : State) : State := s.placeReceived s.txFrame

/-- Reset (R190): the block's own state takes the values of R44; the inputs the host owns, to which R44 gives
no reset value, and the host's moves still to come stay as they are (log entry 8). -/
def State.resetBlock (s : State) : State :=
  { State.reset with
    rxb := s.rxb, rxLen := s.rxLen, arg := s.arg, argLen := s.argLen, argPresent := s.argPresent, host := s.host }

/-- What a presented command or byte sequence that is no row of the opcode table does: a reserved code is
refused (R82); bytes that are no legal frame are received like any others, and DECODE is what rejects them
(R33, R78). -/
def State.presentOther (s : State) : Presented → Host.Outcome State Fault Refusal
  | .command c => .refused (.reservedCommand c.cmd)
  | .wire bytes => .next (s.placeReceived bytes)

/-- FRAME: one frame handed over by the transport, placed in RXB and RXLEN (R33, R71, R194 step 5). It is no
command: it does not ask for FATAL = 0, and writes neither M nor STATUS (log entry 1). -/
def execFrame (f : WireFrame) (s : State) : Host.Outcome State Fault Refusal :=
  .next (s.placeReceived f.bytes)

end Sys2Proof.Machine
end

