-- ==== Sys2Proof/Machine/Payload.lean ====
section
/-! DEFINITION. The two commands that set the payload: SET_PAYLOAD_TEXT and SET_PAYLOAD_HEX. -/

namespace Sys2Proof.Machine

/-- SET_PAYLOAD_TEXT (R103): the argument's bytes verbatim, up to 255 of them, and the length from the
argument. ARG_PRESENT is not read (R32). -/
def execSetPayloadText (s : State) : Host.Outcome State Fault Refusal :=
  let n := clampLength s.argLen
  s.accepting <| .next <| State.complete
    { s with m := Message.seal { s.m with pay := filledStore (s.arg.load 0 n), len := BitVec.ofNat 8 n } }

/-- SET_PAYLOAD_HEX (R105): all parsing precedes the first write; the bytes are cut or zero-padded to the
length M already has, and the store above it is not written. -/
def execSetPayloadHex (s : State) : Host.Outcome State Fault Refusal :=
  s.accepting <|
    match parseHex s.argBytes with
    | none => .next (s.takeError .invalidHexToken)
    | some bs => .next <| State.complete
        { s with m := Message.seal { s.m with pay := overwrittenStore s.m.pay s.m.len.toNat bs } }

end Sys2Proof.Machine
end

