-- ==== Sys2Proof/Machine/Queries.lean ====
section
/-! DEFINITION. The commands that answer with a number: CHECKSUM and WIRESIZE. -/

namespace Sys2Proof.Machine

/-- CHECKSUM (R106). -/
def execChecksum (s : State) : Host.Outcome State Fault Refusal :=
  s.accepting <| .next <| State.complete { s with m := s.m.seal, res := s.m.sum.setWidth 9 }

/-- WIRESIZE (R107): nine bits, no wrap. -/
def execWireSize (s : State) : Host.Outcome State Fault Refusal :=
  s.accepting <| .next <| State.complete { s with res := BitVec.ofNat 9 s.m.wireSize }

end Sys2Proof.Machine
end

