-- ==== Sys2Proof/Machine/Dispatch.lean ====
section
/-! DEFINITION. The meaning of every row of the opcode table, one arm per constructor. -/

namespace Sys2Proof.Machine

def exec (i : Instr) (s : State) : Host.Outcome State Fault Refusal :=
  match i with
  | .loadDefault => Sys2Proof.Machine.execLoadDefault s
  | .construct hdr lenIn dev grp log drv fn ckSeed => Sys2Proof.Machine.execConstruct hdr lenIn dev grp log drv fn ckSeed s
  | .setPayloadText => Sys2Proof.Machine.execSetPayloadText s
  | .setPayloadHex => Sys2Proof.Machine.execSetPayloadHex s
  | .checksum => Sys2Proof.Machine.execChecksum s
  | .wireSize => Sys2Proof.Machine.execWireSize s
  | .encode => Sys2Proof.Machine.execEncode s
  | .decode => Sys2Proof.Machine.execDecode s
  | .frame f => Sys2Proof.Machine.execFrame f s

end Sys2Proof.Machine
end

