-- ==== Sys2Proof/Machine/Step.lean ====
section
/-! DEFINITION. One step: the next move of the host. A command is one step (R30); a move of the host between
commands is a step of its own. -/

namespace Sys2Proof.Machine

/-- One step of the block and of the world that drives it. The block fetches no instruction from a memory
(R41, R63): what runs next is what the host presents next. -/
def step (s : State) : Host.Outcome State Fault Refusal :=
  match s.fetch with
  | none => .refused .idle
  | some (.present p, s') =>
    match decode p with
    | .ok i => exec i s'
    | .error _ => s'.presentOther p
  | some (.argument bytes, s') => .next (s'.placeArgument bytes)
  | some (.loopBack, s') => .next s'.loopBack
  | some (.reset, s') => .next s'.resetBlock

/-- The state in which the host presents a word of the opcode table next. -/
def State.withFetchWord (s : State) (nbits w : Nat) : State :=
  { s with host := .present (tableWord nbits w) :: s.host }

end Sys2Proof.Machine
end

