-- ==== Sys2Proof/Safety.lean ====
section
/-! DEFINITION. The words in which claims about the block are made: valid Messages, the exact checksum sum, which
instructions are commands, the hexadecimal text, and the invariant of every reachable state. -/

namespace Sys2Proof.Machine

/-- The block's eight commands (R80); the FRAME row is the wire format and no command. -/
def isCommand : Instr → Bool
  | .loadDefault => true
  | .construct .. => true
  | .setPayloadText => true
  | .setPayloadHex => true
  | .checksum => true
  | .wireSize => true
  | .encode => true
  | .decode => true
  | .frame _ => false

/-- The payload store is zero at and above LEN: I2 of R26. -/
def Message.TailZero (m : Message) : Prop := ∀ i, m.len.toNat ≤ i → m.payAt i = 0

/-- `Valid(m)` (R27). -/
def Message.Valid (m : Message) : Prop := m.hdr = 0xAA#8 ∧ m.ck = m.sum ∧ m.TailZero

/-- The sum of R100 before it is reduced: six fields and the payload bytes below LEN, as natural numbers. -/
def Message.exactSum (m : Message) : Nat :=
  m.len.toNat + m.dev.toNat + m.grp.toNat + m.log.toNat + m.drv.toNat + m.fn.toNat
    + ∑ i ∈ Finset.range m.len.toNat, (m.payAt i).toNat

/-- `digit` of R85 as a relation between an ASCII code and a value. -/
def IsHexDigit (b : Byte) (d : Nat) : Prop :=
  (0x30 ≤ b.toNat ∧ b.toNat ≤ 0x39 ∧ b.toNat = 0x30 + d) ∨
  (0x61 ≤ b.toNat ∧ b.toNat ≤ 0x66 ∧ b.toNat + 10 = 0x61 + d) ∨
  (0x41 ≤ b.toNat ∧ b.toNat ≤ 0x46 ∧ b.toNat + 10 = 0x41 + d)

/-- A text made of leading whitespace and of tokens, each with the bytes that follow it. -/
def joinTokens (lead : List Byte) : List (List Byte × List Byte) → List Byte
  | [] => lead
  | (tok, sep) :: rest => lead ++ tok ++ joinTokens sep rest

/-- The tokens are not empty and hold no whitespace; what separates two tokens is whitespace and not empty, and
what follows the last one may be empty (R84). -/
def Separated : List (List Byte × List Byte) → Prop
  | [] => True
  | (tok, sep) :: rest =>
    tok ≠ [] ∧ (∀ b ∈ tok, isSpace b = false) ∧ (∀ b ∈ sep, isSpace b = true) ∧ (rest ≠ [] → sep ≠ []) ∧ Separated rest

/-- What every reachable state meets: I1 and I2 of R26; FATAL = 0 (R39); a STATUS that is neither of the two
unreachable errors (R134, R149); a RES within R38; buffers in canonical form; TXB within its 263 bytes and
holding, when TXLEN is not 0, the frame of a Message with a right checksum (R34, R133); an event only beside its
own status (R178). -/
structure State.Inv (s : State) : Prop where
  checksum   : s.m.ck = s.m.sum
  tailZero   : s.m.TailZero
  running    : s.fatal = false
  reachable  : s.status ≠ ErrorKind.outOfBounds.code ∧ s.status ≠ ErrorKind.bufferOverflow.code
  result     : s.res.toNat ≤ 263
  txbForm    : s.txb.wf = true
  rxbForm    : s.rxb.wf = true
  argForm    : s.arg.wf = true
  txbInside  : ∀ a, Config.txCap ≤ a → s.txb.read a = unlistedByte
  framed     : s.txLen = 0 ∨ ∃ m : Message, m.ck = m.sum ∧ s.txLen.toNat = m.wireSize ∧ s.txFrame = m.frame
  eventCause : ∀ e, s.event = some e → e.kind.rejectsFrame = true ∧ s.status = e.kind.code

end Sys2Proof.Machine
end

