-- ==== Sys2Proof/Certificates/Slice0/Obligations.lean ====
section
/-! DEFINITION. The statements for the provers. Each docstring names the rule of spec/ it formalises. Four
clauses recur and are the model's own: `event := none` at the end of a command without an error (log entry 5), the
canonical form of the buffers as a premise (log entry 4), the host's moves in the state (log entry 6), and what a
buffer keeps when the host places bytes in it (log entry 19). -/

open Sys2Proof Sys2Proof.Machine

/-! ### What is presented to the block -/

/-- R80, R81, R71: decoding what the encoder writes gives the instruction back, with every operand. -/
def Obligations.DecodeEncodeRoundTrip : Prop :=
  ∀ i : Instr, i.wellFormed = true → decode (encode i) = .ok i

/-- R80, R81, R71, the other direction: what decodes is well formed, and encodes to the bytes or to the command
code it came from; CONSTRUCT, which reads every operand line, encodes to exactly the lines it came from. -/
def Obligations.DecodedPresentationEncodesBack : Prop :=
  (∀ bs i, decode (.wire bs) = .ok i → i.wellFormed = true ∧ encode i = .wire bs) ∧
  (∀ c i, decode (.command c) = .ok i →
    i.wellFormed = true ∧ ∃ c', encode i = .command c' ∧ c'.cmd = c.cmd ∧ (c.cmd = 0x2 → c' = c))

/-- The words of the opcode table, each as `tableWord` presents it: the eight codes of R80 name their rows, and every
other 4-bit code names none (R82). That a word below 16 is a code with every operand line at zero, and that the one
byte 0xAA, of which R73 says only that it is the header, stands for the whole frame of eight bytes with zeros after
it, is the model's choice, log entry 23. -/
def Obligations.TableWordsNameTheirRows : Prop :=
  decodeTableWord 8 0x1 = some .loadDefault ∧
  decodeTableWord 8 0x2 = some (.construct 0 0 0 0 0 0 0 0) ∧
  decodeTableWord 8 0x3 = some .setPayloadText ∧
  decodeTableWord 8 0x4 = some .setPayloadHex ∧
  decodeTableWord 8 0x5 = some .checksum ∧
  decodeTableWord 8 0x6 = some .wireSize ∧
  decodeTableWord 8 0x7 = some .encode ∧
  decodeTableWord 8 0x8 = some .decode ∧
  decodeTableWord 8 0xAA = some (.frame
    { header := 0xAA, dataLen := 0, deviceAddr := 0, deviceGroup := 0, logicGroup := 0, driverAddr := 0
      functionCode := 0, payload := [], checksum := 0 }) ∧
  ∀ w, w < 16 → w = 0 ∨ 9 ≤ w → decodeTableWord 8 w = none

/-- R30, R63: when the host's next move presents something that decodes to `i`, the step is `exec i`, with that
move taken off the host's moves. -/
def Obligations.StepRunsDecodedInstruction : Prop :=
  ∀ (s : State) (p : Presented) (rest : List HostMove) (i : Instr),
    s.host = .present p :: rest → decode p = .ok i → step s = exec i { s with host := rest }

/-- R82 (the spec's own decision D4) and R170: with a command presented, the step is refused when its code is
reserved, and with one of the eight codes it answers a next state exactly while FATAL = 0. -/
def Obligations.CommandCodesAcceptedOrRefused : Prop :=
  ∀ (s : State) (c : CommandLines) (rest : List HostMove), s.host = .present (.command c) :: rest →
    ((c.cmd = 0x0 ∨ 9 ≤ c.cmd.toNat) → step s = .refused (.reservedCommand c.cmd)) ∧
    (1 ≤ c.cmd.toNat → c.cmd.toNat ≤ 8 → s.fatal = true → step s = .refused .fatalStop) ∧
    (1 ≤ c.cmd.toNat → c.cmd.toNat ≤ 8 → s.fatal = false → ∃ t, step s = .next t)

/-- R32, R33, R89: the host's moves between commands. Received bytes, legal frame or not, are read back from RXB with
their count; an argument from ARG with its count; the loop-back puts TXB[0..TXLEN) into RXB. The block's own state is
unchanged. That a buffer keeps what it held at and above the count, and that declaring the argument absent keeps ARG
and ARGLEN, is the model's choice, log entry 19. -/
def Obligations.HostMovesPlaceBytes : Prop :=
  ∀ (s : State) (rest : List HostMove) (bs : List Byte), s.rxb.wf = true → s.arg.wf = true →
    (s.host = .present (.wire bs) :: rest →
      ∃ rxb, step s = .next { s with rxb := rxb, rxLen := bs.length, host := rest } ∧
        rxb.load 0 bs.length = bs ∧ ∀ a, bs.length ≤ a → rxb.read a = s.rxb.read a) ∧
    (s.host = .argument (some bs) :: rest →
      ∃ arg, step s = .next { s with arg := arg, argLen := bs.length, argPresent := true, host := rest } ∧
        arg.load 0 bs.length = bs ∧ ∀ a, bs.length ≤ a → arg.read a = s.arg.read a) ∧
    (s.host = .argument none :: rest → step s = .next { s with argPresent := false, host := rest }) ∧
    (s.host = .loopBack :: rest →
      ∃ rxb, step s = .next { s with rxb := rxb, rxLen := s.txLen.toNat, host := rest } ∧
        (∀ a, a < s.txLen.toNat → rxb.read a = s.txb.read a) ∧
        ∀ a, s.txLen.toNat ≤ a → rxb.read a = s.rxb.read a)

/-- R33, R71: FRAME puts the nine fields of the frame at their offsets of RXB and their count in RXLEN, and changes
nothing else. That a frame handed over is an instruction of the model is log entry 1, and that RXB keeps what it held
at and above the count is log entry 19. -/
def Obligations.FrameDelivery : Prop :=
  ∀ (s : State) (f : WireFrame), (Instr.frame f).wellFormed = true → s.rxb.wf = true →
    ∃ rxb, exec (.frame f) s = .next { s with rxb := rxb, rxLen := 8 + f.dataLen.toNat } ∧
      rxb.read 0 = f.header ∧ rxb.read 1 = f.dataLen ∧ rxb.read 2 = f.deviceAddr ∧ rxb.read 3 = f.deviceGroup ∧
      rxb.read 4 = f.logicGroup ∧ rxb.read 5 = f.driverAddr ∧ rxb.read 6 = f.functionCode ∧
      (∀ i, i < f.dataLen.toNat → rxb.read (7 + i) = f.payload.getD i 0) ∧
      rxb.read (7 + f.dataLen.toNat) = f.checksum ∧
      ∀ a, 8 + f.dataLen.toNat ≤ a → rxb.read a = s.rxb.read a

/-- R33, R71, R150, R78: a frame handed over by the transport and then decoded is delivered: DECODE ends with STATUS 0
and M holds the frame's nine fields, whatever their values. It rests on the spec's own threshold 8 (D8, log entry 2).
That `event` is none where nothing is emitted is log entry 5. -/
def Obligations.DeliveredFrameDecodes : Prop :=
  ∀ (s t : State) (f : WireFrame), (Instr.frame f).wellFormed = true → s.fatal = false → s.rxb.wf = true →
    exec (.frame f) s = .next t →
    ∃ m, exec .decode t = .next { t with m := m, status := 0, event := none } ∧
      m.hdr = f.header ∧ m.len = f.dataLen ∧ m.dev = f.deviceAddr ∧ m.grp = f.deviceGroup ∧
      m.log = f.logicGroup ∧ m.drv = f.driverAddr ∧ m.fn = f.functionCode ∧ m.payload = f.payload ∧
      m.ck = f.checksum ∧ m.Valid

/-! ### The checksum -/

/-- R100, R74: `Sum(m)` is the exact sum of the six fields and of the payload bytes below LEN, reduced modulo 256; the
exact sum is at most 66555; and it is the sum modulo 256 of every byte of the frame but the first and the last. -/
def Obligations.ChecksumIsSumModulo256 : Prop :=
  ∀ m : Message,
    m.sum.toNat = m.exactSum % 256 ∧ m.exactSum ≤ 66555 ∧
    m.sum.toNat = byteSum (m.frame.drop 1).dropLast % 256

/-- R110: an accumulator of any width from 8 bits on, wrapping at that width, ends with the same low byte. R110 is the
spec's derivation from R100. -/
def Obligations.AccumulatorWidthIsUnobservable : Prop :=
  ∀ (m : Message) (w : Nat), 8 ≤ w →
    (([m.len, m.dev, m.grp, m.log, m.drv, m.fn] ++ m.payload).foldl
      (fun (acc : BitVec w) b => acc + b.setWidth w) 0).setWidth 8 = m.sum

/-- R112, R100: leaving zero-valued payload bytes out of the sum gives the same checksum for every Message. -/
def Obligations.SkippingZeroBytesChangesNothing : Prop :=
  ∀ m : Message,
    m.sum = BitVec.ofNat 8 (byteSum ([m.len, m.dev, m.grp, m.log, m.drv, m.fn] ++ m.payload.filter (· ≠ 0)))

/-! ### The commands -/

/-- R101 (with the spec's own decision D14: zero length, function code 0x00, empty payload, group 0x91, log entry 3):
LOAD_DEFAULT loads the default constant with checksum 0x22 whatever the state, and changes nothing else but
STATUS. That `event` is none where nothing is emitted is log entry 5. -/
def Obligations.LoadDefaultResult : Prop :=
  ∀ s : State, s.fatal = false →
    exec .loadDefault s = .next
      { s with
        m := { hdr := 0xAA, len := 0, dev := 0xC8, grp := 0x91, log := 0xC8, drv := 0x01, fn := 0x00
               pay := Vector.replicate 255 0, ck := 0x22 }
        status := 0
        event := none }

/-- R102, R76, R77 (with the spec's own decisions D9 and D10): CONSTRUCT stores the six bytes as given and the length
saturated at 255, copies `min(LEN, ARGLEN)` bytes of the argument, none where it is absent, zero-fills the rest of
the store, recomputes the checksum, and changes nothing else but STATUS. `ckSeed` is not stored.
That `event` is none where nothing is emitted is log entry 5. -/
def Obligations.ConstructResult : Prop :=
  ∀ (s : State) (hdr : Byte) (lenIn : Nat) (dev grp log drv fn ckSeed : Byte), s.fatal = false →
    ∃ m, exec (.construct hdr lenIn dev grp log drv fn ckSeed) s = .next { s with m := m, status := 0, event := none } ∧
      m.hdr = hdr ∧ m.len.toNat = min lenIn 255 ∧ m.dev = dev ∧ m.grp = grp ∧ m.log = log ∧ m.drv = drv ∧ m.fn = fn ∧
      (∀ i, m.payAt i =
        if s.argPresent = true ∧ i < min (min lenIn 255) s.argLen then s.arg.read i else 0) ∧
      m.ck.toNat = m.exactSum % 256

/-- R102 corner cases (c), (d), (f), (g) and R81: neither `ckSeed`, nor the argument's bytes from `min(LEN, ARGLEN)` on,
nor any byte or the length of an absent argument, nor the Message before, changes the Message CONSTRUCT builds. -/
def Obligations.ConstructReadsOnlyItsOperands : Prop :=
  ∀ (s s' : State) (hdr : Byte) (lenIn : Nat) (dev grp log drv fn k k' : Byte) (t t' : State),
    s'.argPresent = s.argPresent →
    (s.argPresent = true → s'.argLen = s.argLen ∧ ∀ a, a < min (min lenIn 255) s.argLen → s'.arg.read a = s.arg.read a) →
    exec (.construct hdr lenIn dev grp log drv fn k) s = .next t →
    exec (.construct hdr lenIn dev grp log drv fn k') s' = .next t' →
    t'.m = t.m

/-- R103, R76 (with the spec's own decision D25): SET_PAYLOAD_TEXT stores the first `min(ARGLEN, 255)` bytes of the
argument as they are, zero-fills the store, sets LEN to that count, recomputes the checksum, and changes nothing
else but STATUS. That `event` is none where nothing is emitted is log entry 5. -/
def Obligations.SetPayloadTextResult : Prop :=
  ∀ s : State, s.fatal = false →
    ∃ m, exec .setPayloadText s = .next { s with m := m, status := 0, event := none } ∧
      m.hdr = s.m.hdr ∧ m.len.toNat = min s.argLen 255 ∧ m.dev = s.m.dev ∧ m.grp = s.m.grp ∧ m.log = s.m.log ∧
      m.drv = s.m.drv ∧ m.fn = s.m.fn ∧
      (∀ i, m.payAt i = if i < min s.argLen 255 then s.arg.read i else 0) ∧
      m.ck.toNat = m.exactSum % 256

/-- R105 (with the spec's own decision D13 on the grammar): where the argument parses, SET_PAYLOAD_HEX fills the payload
up to the length M already has, zero-padded, leaves LEN and the store above it, recomputes the checksum, and
changes nothing else but STATUS. That `event` is none where nothing is emitted is log entry 5. -/
def Obligations.SetPayloadHexResult : Prop :=
  ∀ (s : State) (bs : List Byte), s.fatal = false → parseHex s.argBytes = some bs →
    ∃ m, exec .setPayloadHex s = .next { s with m := m, status := 0, event := none } ∧
      m.hdr = s.m.hdr ∧ m.len = s.m.len ∧ m.dev = s.m.dev ∧ m.grp = s.m.grp ∧ m.log = s.m.log ∧
      m.drv = s.m.drv ∧ m.fn = s.m.fn ∧
      (∀ i, m.payAt i = if i < s.m.len.toNat then bs.getD i 0 else s.m.payAt i) ∧
      m.ck.toNat = m.exactSum % 256

/-- R167: a command ends with STATUS 6 exactly when it is SET_PAYLOAD_HEX and some token of its argument does not match
the grammar, wherever it stands; it then leaves M, and everything but STATUS, unchanged. What the observer is told is
left to RejectEventExactlyOnFailedDecode. -/
def Obligations.InvalidHexTokenCause : Prop :=
  ∀ (i : Instr) (s t : State), isCommand i = true → exec i s = .next t →
    (t.status = 6 ↔ i = .setPayloadHex ∧ ∃ tok ∈ tokens s.argBytes, tokenValue? tok = none) ∧
    (t.status = 6 → ∃ e, t = { s with status := 6, event := e })

/-- R84 (whitespace and tokens by the spec's own decision D13): whitespace is six bytes, and the tokens of a text are its
maximal runs of bytes that are not whitespace, whatever whitespace stands before, between and after them. -/
def Obligations.TokensAreMaximalRuns : Prop :=
  (∀ b : Byte, isSpace b = true ↔ b ∈ [0x20, 0x09, 0x0A, 0x0B, 0x0C, 0x0D]) ∧
  ∀ (lead : List Byte) (ps : List (List Byte × List Byte)),
    (∀ b ∈ lead, isSpace b = true) → Separated ps → tokens (joinTokens lead ps) = ps.map Prod.fst

/-- R85 (by the spec's own decision D13): a token has a value exactly when it is two hexadecimal digits of either case,
with `0x`, `0X` or nothing before them, and the value is 16 times the first digit plus the second. -/
def Obligations.TokenGrammar : Prop :=
  ∀ (tok : List Byte) (v : Byte), tokenValue? tok = some v ↔
    ∃ (pre : List Byte) (a b : Byte) (d e : Nat),
      (pre = [] ∨ pre = [0x30, 0x78] ∨ pre = [0x30, 0x58]) ∧ tok = pre ++ [a, b] ∧
      IsHexDigit a d ∧ IsHexDigit b e ∧ v.toNat = 16 * d + e

/-- R86, R104 (by the spec's own decision D13): a text parses to `vs` exactly when its tokens, all of them and in order,
have the values `vs`; one malformed token anywhere makes the whole text fail. -/
def Obligations.ParseHexIsAllOrNothing : Prop :=
  ∀ (text vs : List Byte),
    (parseHex text = some vs ↔ (tokens text).map tokenValue? = vs.map some) ∧
    (parseHex text = none ↔ ∃ tok ∈ tokens text, tokenValue? tok = none)

/-- R106: CHECKSUM writes the sum modulo 256 to M.CK and, zero-extended, to RES, and STATUS 0; nothing else changes but
the observer's event, and where M.CK already equals the sum M does not change either. -/
def Obligations.ChecksumCommandResult : Prop :=
  ∀ s : State, s.fatal = false →
    ∃ (c : Byte) (r : BitVec 9) (e : Option RejectEvent),
      exec .checksum s = .next { s with m := { s.m with ck := c }, res := r, status := 0, event := e } ∧
      c.toNat = s.m.exactSum % 256 ∧ r.toNat = s.m.exactSum % 256 ∧
      (s.m.ck = s.m.sum → { s.m with ck := c } = s.m)

/-- R107, R72: WIRESIZE writes 8 + LEN to RES without wrap, 8 to 263, and STATUS 0; nothing else changes but the
observer's event; it is the length of the frame. -/
def Obligations.WireSizeCommandResult : Prop :=
  ∀ s : State, s.fatal = false →
    ∃ (r : BitVec 9) (e : Option RejectEvent),
      exec .wireSize s = .next { s with res := r, status := 0, event := e } ∧
      r.toNat = 8 + s.m.len.toNat ∧ 8 ≤ r.toNat ∧ r.toNat ≤ 263 ∧ s.m.frame.length = r.toNat

/-- R130, R131, R71: ENCODE writes the bytes of M at the offsets of the frame, sets TXLEN to 8 + LEN and STATUS to 0, and
changes nothing else: every byte of TXB at 8 + LEN or above reads as before. It does so for every M, so it never
overflows (R134). That the bytes above the frame are kept is the model's reading of R130, log entry 7.
That `event` is none where nothing is emitted is log entry 5. -/
def Obligations.EncodeResult : Prop :=
  ∀ s : State, s.fatal = false → s.txb.wf = true →
    ∃ (txb : Memory) (n : BitVec 9),
      exec .encode s = .next { s with txb := txb, txLen := n, status := 0, event := none } ∧
      n.toNat = 8 + s.m.len.toNat ∧
      txb.read 0 = s.m.hdr ∧ txb.read 1 = s.m.len ∧ txb.read 2 = s.m.dev ∧ txb.read 3 = s.m.grp ∧
      txb.read 4 = s.m.log ∧ txb.read 5 = s.m.drv ∧ txb.read 6 = s.m.fn ∧
      (∀ i, i < s.m.len.toNat → txb.read (7 + i) = s.m.payAt i) ∧
      txb.read (7 + s.m.len.toNat) = s.m.ck ∧
      ∀ a, 8 + s.m.len.toNat ≤ a → txb.read a = s.txb.read a

/-- R132, R133 (the spec's derivations from R130, R107, R100): after ENCODE, TXLEN is 8 + TXB[1] and the RES WIRESIZE
would give, and where M.CK was the sum the last byte of the frame is the sum modulo 256 of all but it and the
first. -/
def Obligations.EncodedFramePassesTheChecks : Prop :=
  ∀ s t : State, s.txb.wf = true → exec .encode s = .next t →
    t.txLen.toNat = 8 + (t.txb.read 1).toNat ∧
    (∃ u, exec .wireSize s = .next u ∧ u.res = t.txLen) ∧
    (s.m.ck = s.m.sum →
      (t.txb.read (t.txLen.toNat - 1)).toNat = (∑ a ∈ Finset.Ico 1 (t.txLen.toNat - 1), (t.txb.read a).toNat) % 256)

/-- R135 (the spec's derivation from R131): Messages with a zero tail and the same frame are equal. -/
def Obligations.FrameIsInjective : Prop :=
  ∀ a b : Message, a.TailZero → b.TailZero → a.frame = b.frame → a = b

/-- R150, R148 (with the spec's own threshold 8, D8, log entry 2): the outcome of DECODE, the first failing check in the
order length at least 8, header, length, checksum; on a failure M is unchanged, on success M is the Message whose
frame was received, with a zero tail. -/
def Obligations.DecodeOutcome : Prop :=
  ∀ s : State, s.fatal = false →
    ∃ t, exec .decode s = .next t ∧
      if s.rxLen < 8 then t.status = 1 ∧ t.m = s.m
      else if s.rxb.read 0 ≠ 0xAA#8 then t.status = 2 ∧ t.m = s.m
      else if s.rxLen ≠ 8 + (s.rxb.read 1).toNat then t.status = 3 ∧ t.m = s.m
      else if (s.rxb.read (s.rxLen - 1)).toNat ≠
          (∑ a ∈ Finset.Ico 1 (s.rxLen - 1), (s.rxb.read a).toNat) % 256 then t.status = 5 ∧ t.m = s.m
      else t.status = 0 ∧ t.m.frame = s.rxBytes ∧ t.m.TailZero

/-- R147, R140: on a received frame that passes the three checks DECODE commits every field from its offset of RXB,
zero-fills the store above the payload (the spec's own decision D11), sets STATUS to 0, and changes nothing else; M
is then valid. It rests on the spec's own threshold 8 (D8, log entry 2).
That `event` is none where nothing is emitted is log entry 5. -/
def Obligations.DecodeCommitsLegalFrame : Prop :=
  ∀ s : State, s.fatal = false → s.rxb.read 0 = 0xAA#8 → s.rxLen = 8 + (s.rxb.read 1).toNat →
    (s.rxb.read (s.rxLen - 1)).toNat = (∑ a ∈ Finset.Ico 1 (s.rxLen - 1), (s.rxb.read a).toNat) % 256 →
    ∃ m, exec .decode s = .next { s with m := m, status := 0, event := none } ∧
      m.hdr = s.rxb.read 0 ∧ m.len = s.rxb.read 1 ∧ m.dev = s.rxb.read 2 ∧ m.grp = s.rxb.read 3 ∧
      m.log = s.rxb.read 4 ∧ m.drv = s.rxb.read 5 ∧ m.fn = s.rxb.read 6 ∧
      (∀ i, m.payAt i = if i < (s.rxb.read 1).toNat then s.rxb.read (7 + i) else 0) ∧
      m.ck = s.rxb.read (s.rxLen - 1) ∧ m.Valid

/-- R172, R178, R140 (with the spec's own decisions D12 and D21): a DECODE that ends in an error changes STATUS alone and
emits one event, the error's kind and the received bytes; no other command emits an event, and neither does a
DECODE that succeeds.
That `event` is none where nothing is emitted is log entry 5. -/
def Obligations.RejectEventExactlyOnFailedDecode : Prop :=
  ∀ (i : Instr) (s t : State), isCommand i = true → exec i s = .next t →
    ((i = .decode ∧ t.status ≠ 0) →
      ∃ k : ErrorKind, k.code = t.status ∧ k.rejectsFrame = true ∧
        t = { s with status := t.status, event := some { kind := k, bytes := s.rxBytes } }) ∧
    (¬ (i = .decode ∧ t.status ≠ 0) → t.event = none)

/-! ### Rules of the whole block -/

/-- R134, R149, R168 (the spec's derivations): no command ends in `OutOfBounds` or `BufferOverflow` or sets FATAL. -/
def Obligations.UnreachableErrors : Prop :=
  ∀ (i : Instr) (s t : State), isCommand i = true → exec i s = .next t →
    t.status ≠ ErrorKind.outOfBounds.code ∧ t.status ≠ ErrorKind.bufferOverflow.code ∧ t.fatal = false

/-- R57: no step, from any state whatever, writes outside TXB: no step ends in a fault. -/
def Obligations.NoStepFaults : Prop :=
  ∀ (s : State) (f : Fault), step s ≠ .fault f

/-- R45: which command writes what. RES only by CHECKSUM and WIRESIZE; TXB and TXLEN only by ENCODE; the host's buffers
and moves by none; M not at all by ENCODE and WIRESIZE, its CK alone by CHECKSUM, its payload, LEN and CK by
SET_PAYLOAD_TEXT, its payload below LEN and CK by SET_PAYLOAD_HEX. FATAL, which only a failed ENCODE would write, does not
change. -/
def Obligations.AccessMatrix : Prop :=
  ∀ (i : Instr) (s t : State), isCommand i = true → exec i s = .next t →
    (i ≠ .checksum → i ≠ .wireSize → t.res = s.res) ∧
    (i ≠ .encode → t.txLen = s.txLen ∧ ∀ a, t.txb.read a = s.txb.read a) ∧
    (∀ a, t.rxb.read a = s.rxb.read a) ∧ t.rxLen = s.rxLen ∧ (∀ a, t.arg.read a = s.arg.read a) ∧
    t.argLen = s.argLen ∧ t.argPresent = s.argPresent ∧ t.host = s.host ∧ t.fatal = s.fatal ∧
    (i = .encode ∨ i = .wireSize → t.m = s.m) ∧
    (i = .checksum → t.m = { s.m with ck := t.m.ck }) ∧
    (i = .setPayloadText → t.m = { s.m with pay := t.m.pay, len := t.m.len, ck := t.m.ck }) ∧
    (i = .setPayloadHex →
      t.m = { s.m with pay := t.m.pay, ck := t.m.ck } ∧ ∀ j, s.m.len.toNat ≤ j → t.m.payAt j = s.m.payAt j)

/-- R111 (a), R25: whatever M.CK was before, it is `Sum(M)` after LOAD_DEFAULT, CONSTRUCT, SET_PAYLOAD_TEXT and CHECKSUM,
and after SET_PAYLOAD_HEX and DECODE where they end with STATUS 0. -/
def Obligations.ChecksumRecomputed : Prop :=
  ∀ (i : Instr) (s t : State), isCommand i = true → i ≠ .wireSize → i ≠ .encode → exec i s = .next t →
    (i = .setPayloadHex ∨ i = .decode → t.status = 0) →
    t.m.ck.toNat = t.m.exactSum % 256

/-- R55 (the spec's derivation): every command issued twice leaves the same state as issued once. -/
def Obligations.CommandsAreIdempotent : Prop :=
  ∀ (i : Instr) (s t : State), isCommand i = true → s.txb.wf = true → exec i s = .next t → exec i t = .next t

/-- R37, R38: no command's effect depends on STATUS, RES or the last event, and CHECKSUM and WIRESIZE alone write RES. -/
def Obligations.StatusAndResultAreNeverRead : Prop :=
  ∀ (i : Instr) (s t : State) (x : BitVec 3) (r : BitVec 9) (e : Option RejectEvent), isCommand i = true →
    exec i s = .next t →
    exec i { s with status := x, res := r, event := e } =
      .next { t with res := if i = .checksum ∨ i = .wireSize then t.res else r }

/-- R33, R152: DECODE reads RXB only at offsets below min(RXLEN, 263), and never the argument, TXB or the Message: two
states that agree there and on RXLEN end with the same STATUS and, where it is 0, the same Message; above 263 the
header alone decides between STATUS 2 and 3. -/
def Obligations.DecodeReadsOnlyTheFrame : Prop :=
  ∀ s s' t t' : State, s'.rxLen = s.rxLen → (∀ a, a < min s.rxLen 263 → s'.rxb.read a = s.rxb.read a) →
    exec .decode s = .next t → exec .decode s' = .next t' →
    t'.status = t.status ∧ (t.status = 0 → t'.m = t.m) ∧
    (263 < s.rxLen → t.status = if s.rxb.read 0 = 0xAA#8 then 3 else 2)

/-- R39, R170 (the spec's own decision D7): while FATAL = 1 every command is refused. -/
def Obligations.FatalRefusesEveryCommand : Prop :=
  ∀ (i : Instr) (s : State), isCommand i = true → s.fatal = true → exec i s = .refused .fatalStop

/-- R39, R134, R174, R190: a step never sets FATAL, and clears it only when it is a reset. -/
def Obligations.OnlyResetChangesFatal : Prop :=
  ∀ s t : State, step s = .next t → t.fatal ≠ s.fatal →
    s.fatal = true ∧ ∃ rest, s.host = .reset :: rest

/-- R190, R44 (the spec's own decision D15): reset, presented between commands, puts M at the default constant and STATUS,
RES, FATAL and TXLEN at 0. The group 0x91 and the checksum 0x22 are those of the device class this model is built for,
and the function code 0x00, the length 0 and the empty payload are the spec's own decision D14, log entry 3; the rules
give 0xA1 and 0x32 for the other class. That the host's inputs and its later moves stay is log entry 8.
That `event` is none where nothing is emitted is log entry 5. -/
def Obligations.ResetMoveResult : Prop :=
  ∀ (s : State) (rest : List HostMove), s.host = .reset :: rest →
    ∃ t, step s = .next t ∧
      t.m = { hdr := 0xAA, len := 0, dev := 0xC8, grp := 0x91, log := 0xC8, drv := 0x01, fn := 0x00
              pay := Vector.replicate 255 0, ck := 0x22 } ∧
      t.status = 0 ∧ t.res = 0 ∧ t.fatal = false ∧ t.txLen = 0 ∧ t.event = none ∧
      t.rxb = s.rxb ∧ t.rxLen = s.rxLen ∧ t.arg = s.arg ∧ t.argLen = s.argLen ∧ t.argPresent = s.argPresent ∧
      t.host = rest

/-- R190, R193: a reset block holds the Message LOAD_DEFAULT would load; straight after reset, with deviceGroup 0x91,
CHECKSUM gives 0x22 and ENCODE the frame `AA 00 C8 91 C8 01 00 22`. The group 0x91, and with it the checksum and the
frame, is the device class this model is built for, log entry 3 (the spec's own decision D14). -/
def Obligations.ResetBlockIsReady : Prop :=
  (∀ s t, exec .loadDefault s = .next t → t.m = State.reset.m) ∧
  (∃ t, exec .checksum State.reset = .next t ∧ t.res = 0x22) ∧
  (∃ t, exec .encode State.reset = .next t ∧ t.txFrame = [0xAA, 0x00, 0xC8, 0x91, 0xC8, 0x01, 0x00, 0x22])

/-- R26, R44: the reset state meets the invariant. -/
def Obligations.InvariantAtReset : Prop := State.reset.Inv

/-- R26, R39, R134, R149, R38, R34, R133: every step, whatever the host presents, keeps the invariant. -/
def Obligations.StepKeepsInvariant : Prop :=
  ∀ s t : State, s.Inv → step s = .next t → t.Inv

/-! ### Round trips and corrupted frames -/

/-- R9, R155: from every state with a valid Message and FATAL = 0, the three moves ENCODE, copying TXB[0..TXLEN) to RXB,
DECODE end with STATUS 0 and M equal in every field and all 255 store bytes to M before. It rests on the spec's own
threshold 8 (D8, log entry 2). -/
def Obligations.EncodeThenDecodeRoundTrip : Prop :=
  ∀ (s : State) (rest : List HostMove), s.fatal = false → s.m.Valid → s.txb.wf = true → s.rxb.wf = true →
    s.host = .present (encode .encode) :: .loopBack :: .present (encode .decode) :: rest →
    ∃ t, Host.Core.run core 3 s = .next t ∧ t.status = 0 ∧ t.m = s.m ∧ t.fatal = false ∧ t.host = rest

/-- R155, the converse: where DECODE succeeds, ENCODE from the Message it loaded gives back the received bytes. -/
def Obligations.DecodeThenEncodeRoundTrip : Prop :=
  ∀ s t : State, s.txb.wf = true → exec .decode s = .next t → t.status = 0 →
    ∃ u, exec .encode t = .next u ∧ u.status = 0 ∧ u.txFrame = s.rxBytes

/-- R153 (the spec's derivation): a frame of a valid Message with exactly one byte changed, at offset k, is rejected:
`BadHeader` for k = 0, `LengthMismatch` for k = 1, `ChecksumMismatch` for every other k; M is unchanged. It
rests on the spec's own threshold 8 (D8, log entry 2). -/
def Obligations.SingleByteCorruptionDetected : Prop :=
  ∀ (s : State) (m : Message) (k : Nat) (b : Byte), s.fatal = false → s.rxb.wf = true → m.Valid →
    k < m.frame.length → b ≠ m.frame.getD k 0 →
    ∃ t, exec .decode (s.placeReceived (m.frame.set k b)) = .next t ∧ t.m = s.m ∧
      t.status = if k = 0 then 2 else if k = 1 then 3 else 5

/-- R154 (the spec's derivation): a proper prefix of a frame of a valid Message gives `TooShort` below 8 bytes and
`LengthMismatch` from 8 on, and a frame followed by further bytes, another frame among them, gives
`LengthMismatch`; M is unchanged. The 8 is the spec's own threshold (D8, log entry 2). -/
def Obligations.TruncatedAndExtendedFramesRejected : Prop :=
  ∀ (s : State) (m : Message), s.fatal = false → s.rxb.wf = true → m.Valid →
    (∀ p, p < m.frame.length →
      ∃ t, exec .decode (s.placeReceived (m.frame.take p)) = .next t ∧ t.m = s.m ∧
        t.status = if p < 8 then 1 else 3) ∧
    (∀ x xs, ∃ t, exec .decode (s.placeReceived (m.frame ++ x :: xs)) = .next t ∧ t.m = s.m ∧ t.status = 3)
end

