-- ==== Sys2Proof/Laws/Memory.lean ====
section
/-! SUPPORT. The laws of the buffers: what a read gives after a write, that every operation keeps the canonical
form, and that canonical buffers with equal reads are equal. -/

namespace Sys2Proof.Laws

open Sys2Proof.Machine

@[simp] theorem read_nil (a : Nat) : Memory.read [] a = unlistedByte := rfl

theorem read_cons_entry (k : Nat) (b : Byte) (rest : Memory) (a : Nat) :
    Memory.read ((k, b) :: rest) a = if a = k then b else Memory.read rest a := rfl

@[simp] theorem wf_nil : Memory.wf [] = true := rfl

theorem wfFrom_cons (lo k : Nat) (b : Byte) (rest : Memory) :
    Memory.wfFrom lo ((k, b) :: rest) = true ↔ lo ≤ k ∧ b ≠ unlistedByte ∧ Memory.wfFrom (k + 1) rest = true := by
  simp [Memory.wfFrom, and_assoc]

/-- A canonical buffer stays canonical from a lower offset on. -/
theorem wfFrom_mono {lo lo' : Nat} (h : lo' ≤ lo) {mem : Memory} (hw : Memory.wfFrom lo mem = true) :
    Memory.wfFrom lo' mem = true := by
  cases mem with
  | nil => rfl
  | cons e rest =>
    obtain ⟨k, b⟩ := e
    rw [wfFrom_cons] at hw ⊢
    exact ⟨h.trans hw.1, hw.2⟩

/-- Below its first entry a canonical buffer lists nothing. -/
theorem read_below {lo : Nat} {mem : Memory} (hw : Memory.wfFrom lo mem = true) {a : Nat} (ha : a < lo) :
    mem.read a = unlistedByte := by
  induction mem generalizing lo with
  | nil => rfl
  | cons e rest ih =>
    obtain ⟨k, b⟩ := e
    rw [wfFrom_cons] at hw
    rw [read_cons_entry, if_neg (by omega)]
    exact ih hw.2.2 (by omega)

theorem wfFrom_consEntry {lo a : Nat} (h : lo ≤ a) (v : Byte) {rest : Memory}
    (hw : Memory.wfFrom (a + 1) rest = true) : Memory.wfFrom lo (Memory.cons a v rest) = true := by
  unfold Memory.cons
  split
  · exact wfFrom_mono (by omega) hw
  · next hv => exact (wfFrom_cons ..).2 ⟨h, hv, hw⟩

theorem read_consEntry (a : Nat) (v : Byte) {rest : Memory} (hw : Memory.wfFrom (a + 1) rest = true) (x : Nat) :
    Memory.read (Memory.cons a v rest) x = if x = a then v else rest.read x := by
  unfold Memory.cons
  split
  · next hv =>
    split
    · next hx => rw [hx, hv]; exact read_below hw (by omega)
    · rfl
  · rfl

theorem wfFrom_write {lo : Nat} {mem : Memory} (hw : Memory.wfFrom lo mem = true) {a : Nat} (ha : lo ≤ a) (v : Byte) :
    Memory.wfFrom lo (mem.write a v) = true := by
  induction mem generalizing lo with
  | nil => exact wfFrom_consEntry ha v rfl
  | cons e rest ih =>
    obtain ⟨k, b⟩ := e
    have hw' := (wfFrom_cons ..).1 hw
    unfold Memory.write
    split
    · exact wfFrom_consEntry ha v ((wfFrom_cons ..).2 ⟨by omega, hw'.2⟩)
    · split
      · next h => exact wfFrom_consEntry ha v (h ▸ hw'.2.2)
      · exact (wfFrom_cons ..).2 ⟨hw'.1, hw'.2.1, ih hw'.2.2 (by omega)⟩

/-- A write keeps the canonical form. -/
theorem wf_write {mem : Memory} (hw : mem.wf = true) (a : Nat) (v : Byte) : (mem.write a v).wf = true :=
  wfFrom_write hw (Nat.zero_le a) v

theorem read_writeFrom {lo : Nat} {mem : Memory} (hw : Memory.wfFrom lo mem = true) (a : Nat) (v : Byte) (x : Nat) :
    (mem.write a v).read x = if x = a then v else mem.read x := by
  induction mem generalizing lo with
  | nil => exact read_consEntry a v rfl x
  | cons e rest ih =>
    obtain ⟨k, b⟩ := e
    have hw' := (wfFrom_cons ..).1 hw
    unfold Memory.write
    split
    · exact read_consEntry a v ((wfFrom_cons ..).2 ⟨by omega, hw'.2⟩) x
    · split
      · next h =>
        rw [read_consEntry a v (h ▸ hw'.2.2), read_cons_entry]
        split
        · rfl
        · next hx => rw [if_neg (by omega)]
      · rw [read_cons_entry, read_cons_entry, ih hw'.2.2]
        split
        · next hx => rw [if_neg (by omega)]
        · rfl

/-- A read after a write: the value at the written offset, the old byte at every other. -/
theorem read_write {mem : Memory} (hw : mem.wf = true) (a : Nat) (v : Byte) (x : Nat) :
    (mem.write a v).read x = if x = a then v else mem.read x := read_writeFrom hw a v x

/-- Storing a sequence keeps the canonical form. -/
theorem wf_store {mem : Memory} (hw : mem.wf = true) (off : Nat) (bs : List Byte) : (mem.store off bs).wf = true := by
  induction bs generalizing mem off with
  | nil => exact hw
  | cons b bs ih => exact ih (wf_write hw off b) (off + 1)

/-- A read after a stored sequence. -/
theorem read_store {mem : Memory} (hw : mem.wf = true) (off : Nat) (bs : List Byte) (x : Nat) :
    (mem.store off bs).read x = if off ≤ x ∧ x < off + bs.length then bs.getD (x - off) 0 else mem.read x := by
  induction bs generalizing mem off with
  | nil => rw [if_neg (by simp only [List.length_nil]; omega)]; rfl
  | cons b bs ih =>
    rw [Memory.store, ih (wf_write hw off b), read_write hw]
    rcases Nat.lt_trichotomy x off with h | h | h
    · rw [if_neg (by omega), if_neg (by omega), if_neg (by omega)]
    · subst h; simp
    · have hx : x - off = (x - (off + 1)) + 1 := by omega
      rw [hx, List.getD_cons_succ, List.length_cons, if_neg (show ¬ x = off by omega)]
      exact if_congr (by omega) rfl rfl

/-- Outside the stored sequence every byte reads as before. -/
theorem read_store_outside {mem : Memory} (hw : mem.wf = true) (off : Nat) (bs : List Byte) {x : Nat}
    (hx : x < off ∨ off + bs.length ≤ x) : (mem.store off bs).read x = mem.read x := by
  rw [read_store hw, if_neg (by omega)]

@[simp] theorem length_load (mem : Memory) (off n : Nat) : (mem.load off n).length = n := by
  induction n generalizing off with
  | zero => rfl
  | succ n ih => simp [Memory.load, ih]

@[simp] theorem getElem_load (mem : Memory) (off n i : Nat) (h : i < (mem.load off n).length) :
    (mem.load off n)[i] = mem.read (off + i) := by
  induction n generalizing off i with
  | zero => simp at h
  | succ n ih =>
    cases i with
    | zero => rfl
    | succ i =>
      simp only [Memory.load, List.getElem_cons_succ]
      rw [ih]
      congr 1
      omega

/-- A loaded byte, and zero past the end. -/
theorem getD_load (mem : Memory) (off n i : Nat) :
    (mem.load off n).getD i 0 = if i < n then mem.read (off + i) else 0 := by
  rw [List.getD_eq_getElem?_getD]
  split
  · next h => rw [List.getElem?_eq_getElem (by simpa using h), Option.getD_some, getElem_load]
  · next h => rw [List.getElem?_eq_none (by simpa using h)]; rfl

/-- The sum of loaded bytes. -/
theorem byteSum_load (mem : Memory) (off n : Nat) :
    byteSum (mem.load off n) = ∑ a ∈ Finset.Ico off (off + n), (mem.read a).toNat := by
  induction n generalizing off with
  | zero => simp [Memory.load, byteSum]
  | succ n ih =>
    rw [Finset.sum_eq_sum_Ico_succ_bot (show off < off + (n + 1) by omega), show off + (n + 1) = off + 1 + n by omega, ← ih]
    simp [Memory.load, byteSum]

/-- Two loads of one length are equal when every byte is. -/
theorem load_congr {mem mem' : Memory} {off off' n : Nat}
    (h : ∀ i, i < n → mem.read (off + i) = mem'.read (off' + i)) : mem.load off n = mem'.load off' n :=
  List.ext_getElem (by simp) fun i hi _ => by simpa using h i (by simpa using hi)

/-- Loading a run of bytes in two parts. -/
theorem load_add (mem : Memory) (off n k : Nat) : mem.load off (n + k) = mem.load off n ++ mem.load (off + n) k := by
  induction n generalizing off with
  | zero => simp [Memory.load]
  | succ n ih =>
    rw [Nat.add_right_comm, Memory.load, Memory.load, ih, List.cons_append, Nat.add_right_comm off 1 n, Nat.add_assoc]

/-- What was stored is loaded again. -/
theorem load_store {mem : Memory} (hw : mem.wf = true) (off : Nat) (bs : List Byte) :
    (mem.store off bs).load off bs.length = bs :=
  List.ext_getElem (by simp) fun i hi hi' => by
    rw [getElem_load, read_store hw, if_pos (by omega)]
    simp [List.getD_eq_getElem?_getD, hi']

theorem eq_of_readsFrom {lo : Nat} {mem mem' : Memory} (hw : Memory.wfFrom lo mem = true)
    (hw' : Memory.wfFrom lo mem' = true) (h : ∀ a, mem.read a = mem'.read a) : mem = mem' := by
  induction mem generalizing lo mem' with
  | nil =>
    cases mem' with
    | nil => rfl
    | cons e rest =>
      obtain ⟨k, b⟩ := e
      have h' := (wfFrom_cons ..).1 hw'
      exact absurd (by simpa [read_cons_entry] using (h k).symm) h'.2.1
  | cons e rest ih =>
    obtain ⟨k, b⟩ := e
    have h1 := (wfFrom_cons ..).1 hw
    cases mem' with
    | nil => exact absurd (by simpa [read_cons_entry] using h k) h1.2.1
    | cons e' rest' =>
      obtain ⟨k', b'⟩ := e'
      have h2 := (wfFrom_cons ..).1 hw'
      have hk : k = k' := by
        by_contra hne
        rcases Nat.lt_or_gt_of_ne hne with hlt | hlt
        · have := h k
          rw [read_cons_entry, if_pos rfl, read_cons_entry, if_neg hne, read_below h2.2.2 (by omega)] at this
          exact h1.2.1 this
        · have := h k'
          rw [read_cons_entry, if_neg (by omega), read_cons_entry, if_pos rfl, read_below h1.2.2 (by omega)] at this
          exact h2.2.1 this.symm
      subst hk
      have hb : b = b' := by simpa [read_cons_entry] using h k
      subst hb
      refine congrArg _ (ih h1.2.2 h2.2.2 fun a => ?_)
      have := h a
      rw [read_cons_entry, read_cons_entry] at this
      split at this
      · next ha => rw [read_below h1.2.2 (by omega), read_below h2.2.2 (by omega)]
      · exact this

/-- Canonical buffers that read alike are equal data. -/
theorem eq_of_reads {mem mem' : Memory} (hw : mem.wf = true) (hw' : mem'.wf = true)
    (h : ∀ a, mem.read a = mem'.read a) : mem = mem' := eq_of_readsFrom hw hw' h

end Sys2Proof.Laws
end

