-- ==== Sys2Proof/Laws/State.lean ====
section
/-! SUPPORT. One lemma per field per named update of State and Message, so that no proof unfolds a record update. -/

namespace Sys2Proof.Laws

open Sys2Proof.Machine

/-! ### Completing a command -/

@[simp] theorem complete_m (s : State) : (s.complete).m = s.m := rfl
@[simp] theorem complete_status (s : State) : (s.complete).status = statusOk := rfl
@[simp] theorem complete_res (s : State) : (s.complete).res = s.res := rfl
@[simp] theorem complete_fatal (s : State) : (s.complete).fatal = s.fatal := rfl
@[simp] theorem complete_txb (s : State) : (s.complete).txb = s.txb := rfl
@[simp] theorem complete_txLen (s : State) : (s.complete).txLen = s.txLen := rfl
@[simp] theorem complete_rxb (s : State) : (s.complete).rxb = s.rxb := rfl
@[simp] theorem complete_rxLen (s : State) : (s.complete).rxLen = s.rxLen := rfl
@[simp] theorem complete_arg (s : State) : (s.complete).arg = s.arg := rfl
@[simp] theorem complete_argLen (s : State) : (s.complete).argLen = s.argLen := rfl
@[simp] theorem complete_argPresent (s : State) : (s.complete).argPresent = s.argPresent := rfl
@[simp] theorem complete_event (s : State) : (s.complete).event = none := rfl
@[simp] theorem complete_host (s : State) : (s.complete).host = s.host := rfl

/-! ### Taking an error -/

@[simp] theorem takeError_m (s : State) (k : ErrorKind) : (s.takeError k).m = s.m := rfl
@[simp] theorem takeError_status (s : State) (k : ErrorKind) : (s.takeError k).status = k.code := rfl
@[simp] theorem takeError_res (s : State) (k : ErrorKind) : (s.takeError k).res = s.res := rfl
@[simp] theorem takeError_fatal (s : State) (k : ErrorKind) : (s.takeError k).fatal = (s.fatal || k.isFatal) := rfl
@[simp] theorem takeError_txb (s : State) (k : ErrorKind) : (s.takeError k).txb = s.txb := rfl
@[simp] theorem takeError_txLen (s : State) (k : ErrorKind) : (s.takeError k).txLen = if k.isFatal then 0 else s.txLen := rfl
@[simp] theorem takeError_rxb (s : State) (k : ErrorKind) : (s.takeError k).rxb = s.rxb := rfl
@[simp] theorem takeError_rxLen (s : State) (k : ErrorKind) : (s.takeError k).rxLen = s.rxLen := rfl
@[simp] theorem takeError_arg (s : State) (k : ErrorKind) : (s.takeError k).arg = s.arg := rfl
@[simp] theorem takeError_argLen (s : State) (k : ErrorKind) : (s.takeError k).argLen = s.argLen := rfl
@[simp] theorem takeError_argPresent (s : State) (k : ErrorKind) : (s.takeError k).argPresent = s.argPresent := rfl
@[simp] theorem takeError_event (s : State) (k : ErrorKind) : (s.takeError k).event = if k.rejectsFrame then some { kind := k, bytes := s.rxBytes } else none := rfl
@[simp] theorem takeError_host (s : State) (k : ErrorKind) : (s.takeError k).host = s.host := rfl

/-! ### Placing received bytes -/

@[simp] theorem placeReceived_m (s : State) (bs : List Byte) : (s.placeReceived bs).m = s.m := rfl
@[simp] theorem placeReceived_status (s : State) (bs : List Byte) : (s.placeReceived bs).status = s.status := rfl
@[simp] theorem placeReceived_res (s : State) (bs : List Byte) : (s.placeReceived bs).res = s.res := rfl
@[simp] theorem placeReceived_fatal (s : State) (bs : List Byte) : (s.placeReceived bs).fatal = s.fatal := rfl
@[simp] theorem placeReceived_txb (s : State) (bs : List Byte) : (s.placeReceived bs).txb = s.txb := rfl
@[simp] theorem placeReceived_txLen (s : State) (bs : List Byte) : (s.placeReceived bs).txLen = s.txLen := rfl
@[simp] theorem placeReceived_rxb (s : State) (bs : List Byte) : (s.placeReceived bs).rxb = s.rxb.store 0 bs := rfl
@[simp] theorem placeReceived_rxLen (s : State) (bs : List Byte) : (s.placeReceived bs).rxLen = bs.length := rfl
@[simp] theorem placeReceived_arg (s : State) (bs : List Byte) : (s.placeReceived bs).arg = s.arg := rfl
@[simp] theorem placeReceived_argLen (s : State) (bs : List Byte) : (s.placeReceived bs).argLen = s.argLen := rfl
@[simp] theorem placeReceived_argPresent (s : State) (bs : List Byte) : (s.placeReceived bs).argPresent = s.argPresent := rfl
@[simp] theorem placeReceived_event (s : State) (bs : List Byte) : (s.placeReceived bs).event = s.event := rfl
@[simp] theorem placeReceived_host (s : State) (bs : List Byte) : (s.placeReceived bs).host = s.host := rfl

/-! ### Placing an argument -/

@[simp] theorem placeArgument_m (s : State) (bs : List Byte) : (s.placeArgument (some bs)).m = s.m := rfl
@[simp] theorem placeArgument_status (s : State) (bs : List Byte) : (s.placeArgument (some bs)).status = s.status := rfl
@[simp] theorem placeArgument_res (s : State) (bs : List Byte) : (s.placeArgument (some bs)).res = s.res := rfl
@[simp] theorem placeArgument_fatal (s : State) (bs : List Byte) : (s.placeArgument (some bs)).fatal = s.fatal := rfl
@[simp] theorem placeArgument_txb (s : State) (bs : List Byte) : (s.placeArgument (some bs)).txb = s.txb := rfl
@[simp] theorem placeArgument_txLen (s : State) (bs : List Byte) : (s.placeArgument (some bs)).txLen = s.txLen := rfl
@[simp] theorem placeArgument_rxb (s : State) (bs : List Byte) : (s.placeArgument (some bs)).rxb = s.rxb := rfl
@[simp] theorem placeArgument_rxLen (s : State) (bs : List Byte) : (s.placeArgument (some bs)).rxLen = s.rxLen := rfl
@[simp] theorem placeArgument_arg (s : State) (bs : List Byte) : (s.placeArgument (some bs)).arg = s.arg.store 0 bs := rfl
@[simp] theorem placeArgument_argLen (s : State) (bs : List Byte) : (s.placeArgument (some bs)).argLen = bs.length := rfl
@[simp] theorem placeArgument_argPresent (s : State) (bs : List Byte) : (s.placeArgument (some bs)).argPresent = true := rfl
@[simp] theorem placeArgument_event (s : State) (bs : List Byte) : (s.placeArgument (some bs)).event = s.event := rfl
@[simp] theorem placeArgument_host (s : State) (bs : List Byte) : (s.placeArgument (some bs)).host = s.host := rfl

/-! ### Declaring the argument absent -/

@[simp] theorem withdrawArgument_m (s : State) : (s.placeArgument none).m = s.m := rfl
@[simp] theorem withdrawArgument_status (s : State) : (s.placeArgument none).status = s.status := rfl
@[simp] theorem withdrawArgument_res (s : State) : (s.placeArgument none).res = s.res := rfl
@[simp] theorem withdrawArgument_fatal (s : State) : (s.placeArgument none).fatal = s.fatal := rfl
@[simp] theorem withdrawArgument_txb (s : State) : (s.placeArgument none).txb = s.txb := rfl
@[simp] theorem withdrawArgument_txLen (s : State) : (s.placeArgument none).txLen = s.txLen := rfl
@[simp] theorem withdrawArgument_rxb (s : State) : (s.placeArgument none).rxb = s.rxb := rfl
@[simp] theorem withdrawArgument_rxLen (s : State) : (s.placeArgument none).rxLen = s.rxLen := rfl
@[simp] theorem withdrawArgument_arg (s : State) : (s.placeArgument none).arg = s.arg := rfl
@[simp] theorem withdrawArgument_argLen (s : State) : (s.placeArgument none).argLen = s.argLen := rfl
@[simp] theorem withdrawArgument_argPresent (s : State) : (s.placeArgument none).argPresent = false := rfl
@[simp] theorem withdrawArgument_event (s : State) : (s.placeArgument none).event = s.event := rfl
@[simp] theorem withdrawArgument_host (s : State) : (s.placeArgument none).host = s.host := rfl

/-! ### Looping the frame back -/

@[simp] theorem loopBack_m (s : State) : (s.loopBack).m = s.m := rfl
@[simp] theorem loopBack_status (s : State) : (s.loopBack).status = s.status := rfl
@[simp] theorem loopBack_res (s : State) : (s.loopBack).res = s.res := rfl
@[simp] theorem loopBack_fatal (s : State) : (s.loopBack).fatal = s.fatal := rfl
@[simp] theorem loopBack_txb (s : State) : (s.loopBack).txb = s.txb := rfl
@[simp] theorem loopBack_txLen (s : State) : (s.loopBack).txLen = s.txLen := rfl
@[simp] theorem loopBack_rxb (s : State) : (s.loopBack).rxb = s.rxb.store 0 s.txFrame := rfl
@[simp] theorem loopBack_rxLen (s : State) : (s.loopBack).rxLen = s.txFrame.length := rfl
@[simp] theorem loopBack_arg (s : State) : (s.loopBack).arg = s.arg := rfl
@[simp] theorem loopBack_argLen (s : State) : (s.loopBack).argLen = s.argLen := rfl
@[simp] theorem loopBack_argPresent (s : State) : (s.loopBack).argPresent = s.argPresent := rfl
@[simp] theorem loopBack_event (s : State) : (s.loopBack).event = s.event := rfl
@[simp] theorem loopBack_host (s : State) : (s.loopBack).host = s.host := rfl

/-! ### Resetting the block -/

@[simp] theorem resetBlock_m (s : State) : (s.resetBlock).m = State.reset.m := rfl
@[simp] theorem resetBlock_status (s : State) : (s.resetBlock).status = State.reset.status := rfl
@[simp] theorem resetBlock_res (s : State) : (s.resetBlock).res = State.reset.res := rfl
@[simp] theorem resetBlock_fatal (s : State) : (s.resetBlock).fatal = State.reset.fatal := rfl
@[simp] theorem resetBlock_txb (s : State) : (s.resetBlock).txb = State.reset.txb := rfl
@[simp] theorem resetBlock_txLen (s : State) : (s.resetBlock).txLen = State.reset.txLen := rfl
@[simp] theorem resetBlock_rxb (s : State) : (s.resetBlock).rxb = s.rxb := rfl
@[simp] theorem resetBlock_rxLen (s : State) : (s.resetBlock).rxLen = s.rxLen := rfl
@[simp] theorem resetBlock_arg (s : State) : (s.resetBlock).arg = s.arg := rfl
@[simp] theorem resetBlock_argLen (s : State) : (s.resetBlock).argLen = s.argLen := rfl
@[simp] theorem resetBlock_argPresent (s : State) : (s.resetBlock).argPresent = s.argPresent := rfl
@[simp] theorem resetBlock_event (s : State) : (s.resetBlock).event = State.reset.event := rfl
@[simp] theorem resetBlock_host (s : State) : (s.resetBlock).host = s.host := rfl

/-! ### The Message -/

@[simp] theorem seal_hdr (m : Message) : m.seal.hdr = m.hdr := rfl
@[simp] theorem seal_len (m : Message) : m.seal.len = m.len := rfl
@[simp] theorem seal_dev (m : Message) : m.seal.dev = m.dev := rfl
@[simp] theorem seal_grp (m : Message) : m.seal.grp = m.grp := rfl
@[simp] theorem seal_log (m : Message) : m.seal.log = m.log := rfl
@[simp] theorem seal_drv (m : Message) : m.seal.drv = m.drv := rfl
@[simp] theorem seal_fn (m : Message) : m.seal.fn = m.fn := rfl
@[simp] theorem seal_pay (m : Message) : m.seal.pay = m.pay := rfl
@[simp] theorem seal_ck (m : Message) : m.seal.ck = m.sum := rfl
@[simp] theorem seal_payload (m : Message) : m.seal.payload = m.payload := rfl
@[simp] theorem seal_payAt (m : Message) (i : Nat) : m.seal.payAt i = m.payAt i := rfl
/-- The checksum does not depend on the cached checksum (R100). -/
@[simp] theorem seal_sum (m : Message) : m.seal.sum = m.sum := rfl

end Sys2Proof.Laws
end

