-- ==== Sys2Proof/Laws/Message.lean ====
section
/-! SUPPORT. The payload, the payload store, the wire size and the frame of a Message. -/

namespace Sys2Proof.Laws

open Sys2Proof.Machine

theorem len_lt (m : Message) : m.len.toNat < 256 := m.len.isLt

@[simp] theorem length_payload (m : Message) : m.payload.length = m.len.toNat := by
  have := len_lt m
  simp [Message.payload]
  omega

theorem getElem_payload (m : Message) (i : Nat) (h : i < m.payload.length) : m.payload[i] = m.payAt i := by
  have h1 : i < m.len.toNat := by simpa using h
  have h2 := len_lt m
  simp [Message.payload, Message.payAt, List.getD_eq_getElem?_getD, show i < 255 by omega]

/-- The payload is PAY[0..LEN) (R24). -/
theorem payload_eq_map (m : Message) : m.payload = (List.range m.len.toNat).map m.payAt :=
  List.ext_getElem (by simp) fun i hi _ => by simp [getElem_payload]

/-- Inside the store PAY[i] is the stored byte. -/
theorem payAt_eq (m : Message) {i : Nat} (h : i < 255) : m.payAt i = m.pay[i] := by
  simp [Message.payAt, List.getD_eq_getElem?_getD, h]

/-- Outside the store there is no byte. -/
theorem payAt_outside (m : Message) {i : Nat} (h : 255 ≤ i) : m.payAt i = 0 := by
  simp [Message.payAt, List.getD_eq_getElem?_getD, show ¬ i < 255 by omega]

/-- Stores with equal bytes are equal. -/
theorem pay_ext {p q : Message} (h : ∀ i, i < 255 → p.payAt i = q.payAt i) : p.pay = q.pay :=
  Vector.ext fun i hi => by rw [← payAt_eq p hi, ← payAt_eq q hi]; exact h i hi

@[simp] theorem getElem_filledStore (bs : List Byte) (i : Nat) (h : i < 255) :
    (filledStore bs)[i] = bs.getD i 0 := by
  simp [filledStore]

@[simp] theorem getElem_overwrittenStore (pay : Vector Byte 255) (n : Nat) (bs : List Byte) (i : Nat) (h : i < 255) :
    (overwrittenStore pay n bs)[i] = if i < n then bs.getD i 0 else pay[i] := by
  simp [overwrittenStore]

@[simp] theorem length_frame (m : Message) : m.frame.length = m.wireSize := by
  simp [Message.frame, Message.wireSize, Config.frameOverhead, Config.fixedFields, Config.checksumBytes]
  omega

theorem wireSize_eq (m : Message) : m.wireSize = 8 + m.len.toNat := by
  simp [Message.wireSize, Config.frameOverhead, Config.fixedFields, Config.checksumBytes]

/-- The wire size fits TXB (R57). -/
theorem wireSize_le (m : Message) : m.wireSize ≤ Config.txCap := by
  have := len_lt m
  rw [wireSize_eq]
  simp [Config.txCap, Config.frameOverhead, Config.fixedFields, Config.checksumBytes, Config.maxPayload]
  omega

theorem txCap_eq : Config.txCap = 263 := rfl

/-- Nine bits hold the wire size (R72). -/
theorem toNat_wireSize (m : Message) : (BitVec.ofNat 9 m.wireSize).toNat = m.wireSize := by
  have h := wireSize_le m
  rw [txCap_eq] at h
  rw [BitVec.toNat_ofNat, Nat.mod_eq_of_lt (by omega)]

theorem byteSum_append (a b : List Byte) : byteSum (a ++ b) = byteSum a + byteSum b := by
  simp [byteSum]

@[simp] theorem byteSum_nil : byteSum [] = 0 := rfl

@[simp] theorem byteSum_cons (b : Byte) (bs : List Byte) : byteSum (b :: bs) = b.toNat + byteSum bs := by
  simp [byteSum]

/-- The sum of the payload bytes. -/
theorem byteSum_payload (m : Message) : byteSum m.payload = ∑ i ∈ Finset.range m.len.toNat, (m.payAt i).toNat := by
  rw [payload_eq_map, byteSum, List.map_map]
  induction m.len.toNat with
  | zero => rfl
  | succ n ih => rw [List.range_succ, List.map_append, List.sum_append, ih, Finset.sum_range_succ]; simp

/-- The bytes of the frame, by offset (R71). -/
theorem getD_frame_fixed (m : Message) :
    m.frame.getD 0 0 = m.hdr ∧ m.frame.getD 1 0 = m.len ∧ m.frame.getD 2 0 = m.dev ∧ m.frame.getD 3 0 = m.grp ∧
      m.frame.getD 4 0 = m.log ∧ m.frame.getD 5 0 = m.drv ∧ m.frame.getD 6 0 = m.fn :=
  ⟨rfl, rfl, rfl, rfl, rfl, rfl, rfl⟩

theorem getD_frame_payload (m : Message) {i : Nat} (h : i < m.len.toNat) : m.frame.getD (7 + i) 0 = m.payAt i := by
  have hl : i < m.payload.length := by simpa using h
  rw [Nat.add_comm]
  simp only [Message.frame, List.cons_append, List.nil_append, List.getD_eq_getElem?_getD, List.getElem?_cons_succ]
  rw [List.getElem?_append_left hl, List.getElem?_eq_getElem hl, Option.getD_some, getElem_payload]

theorem getD_frame_checksum (m : Message) : m.frame.getD (7 + m.len.toNat) 0 = m.ck := by
  rw [Nat.add_comm]
  simp only [Message.frame, List.cons_append, List.nil_append, List.getD_eq_getElem?_getD, List.getElem?_cons_succ,
    ← length_payload m]
  simp

/-- The clamp never exceeds 255 and is stored in a byte unchanged (R22). -/
theorem toNat_clampLength (n : Nat) : (BitVec.ofNat 8 (clampLength n)).toNat = min n 255 := by
  have : clampLength n = min n 255 := rfl
  rw [this, BitVec.toNat_ofNat, Nat.mod_eq_of_lt (by omega)]

end Sys2Proof.Laws
end

