-- ==== Sys2Proof/Laws/Cursor.lean ====
section
/-! SUPPORT. What the checked accesses do: a run of checked writes within its capacity is one store, and the
extraction of DECODE reads the offsets of R71. -/

namespace Sys2Proof.Laws

open Sys2Proof.Machine

/-- A checked read either gives the bytes and advances the cursor, or is out of bounds (R56). -/
theorem checkedRead_eq (rx : Memory) (rxLen off n : Nat) :
    checkedRead rx rxLen off n =
      if off + n ≤ rxLen then .ok (rx.load off n, off + n) else .error .outOfBounds := rfl

theorem checkedReadByte_ok {rx : Memory} {rxLen off : Nat} (h : off + 1 ≤ rxLen) :
    checkedReadByte rx rxLen off = .ok (rx.read off, off + 1) := by
  simp [checkedReadByte, checkedRead, h, bind, Except.bind, Memory.load, pure, Except.pure]

/-- A checked write within the capacity and within TXB writes its byte and advances the cursor (R57). -/
theorem checkedWrite_ok {cap : Nat} {c : TxCursor} {v : Byte} (h : c.off + 1 ≤ cap) (hcap : cap ≤ Config.txCap) :
    checkedWrite cap c v = .ok { off := c.off + 1, txb := c.txb.write c.off v } := by
  rw [checkedWrite, if_pos h, if_pos (by omega)]

/-- Checked writes that all fit are one store (R57, R134). -/
theorem checkedWriteAll_ok {cap : Nat} (hcap : cap ≤ Config.txCap) (c : TxCursor) (vs : List Byte)
    (h : c.off + vs.length ≤ cap) :
    checkedWriteAll cap c vs = .ok { off := c.off + vs.length, txb := c.txb.store c.off vs } := by
  induction vs generalizing c with
  | nil => rfl
  | cons v vs ih =>
    rw [List.length_cons] at h
    simp only [checkedWriteAll, checkedWrite_ok (v := v) (show c.off + 1 ≤ cap by omega) hcap, bind, Except.bind]
    rw [ih _ (by simp only; omega)]
    simp only [Memory.store, List.length_cons]
    congr 2
    omega

/-- The whole frame is written, whatever the Message (R134). -/
theorem writeFrame_ok (m : Message) (txb : Memory) :
    checkedWriteAll m.wireSize { off := 0, txb } m.frame = .ok { off := m.wireSize, txb := txb.store 0 m.frame } := by
  rw [checkedWriteAll_ok (wireSize_le m) _ _ (by simp)]
  simp

/-- The extraction never runs out of bounds once the length is right, and reads the offsets of R71 (R149). -/
theorem extractFields_ok {rx : Memory} {rxLen : Nat} {len : Byte} (h : rxLen = 8 + len.toNat) :
    extractFields rx rxLen len = .ok
      { dev := rx.read 2, grp := rx.read 3, log := rx.read 4, drv := rx.read 5, fn := rx.read 6
        pay := rx.load 7 len.toNat, ck := rx.read (7 + len.toNat) } := by
  simp only [extractFields, checkedReadByte_ok (rx := rx) (rxLen := rxLen) (off := 2) (by omega),
    checkedReadByte_ok (rx := rx) (rxLen := rxLen) (off := 3) (by omega),
    checkedReadByte_ok (rx := rx) (rxLen := rxLen) (off := 4) (by omega),
    checkedReadByte_ok (rx := rx) (rxLen := rxLen) (off := 5) (by omega),
    checkedReadByte_ok (rx := rx) (rxLen := rxLen) (off := 6) (by omega), bind, Except.bind,
    checkedRead, if_pos (show 2 + 1 + 1 + 1 + 1 + 1 + len.toNat ≤ rxLen by omega),
    checkedReadByte_ok (rx := rx) (rxLen := rxLen) (off := 7 + len.toNat) (by omega), pure, Except.pure]

/-- The sum of the frame bytes at offsets 1 to 6 + L of a received sequence (R74). -/
theorem byteSum_received (rx : Memory) (n : Nat) :
    byteSum ([rx.read 1, rx.read 2, rx.read 3, rx.read 4, rx.read 5, rx.read 6] ++ rx.load 7 n) =
      byteSum (rx.load 1 (6 + n)) := by
  rw [load_add]
  rfl

/-- The Message a legal frame at the start of a buffer stands for: every field from its offset of R71. -/
def receivedMessage (rx : Memory) : Message where
  hdr := rx.read 0
  len := rx.read 1
  dev := rx.read 2
  grp := rx.read 3
  log := rx.read 4
  drv := rx.read 5
  fn  := rx.read 6
  pay := filledStore (rx.load 7 (rx.read 1).toNat)
  ck  := rx.read (7 + (rx.read 1).toNat)

@[simp] theorem receivedMessage_len (rx : Memory) : (receivedMessage rx).len = rx.read 1 := rfl

/-- The bytes of its store: the payload of the frame, zero above it. -/
theorem receivedMessage_payAt (rx : Memory) (i : Nat) :
    (receivedMessage rx).payAt i = if i < (rx.read 1).toNat then rx.read (7 + i) else 0 := by
  have := (rx.read 1).isLt
  by_cases h : i < 255
  · rw [payAt_eq _ h]
    exact (getElem_filledStore _ i h).trans (getD_load ..)
  · rw [payAt_outside _ (by omega), if_neg (by omega)]

theorem receivedMessage_payload (rx : Memory) :
    (receivedMessage rx).payload = rx.load 7 (rx.read 1).toNat := by
  refine List.ext_getElem (by simp) fun i hi hi' => ?_
  rw [getElem_payload, receivedMessage_payAt, if_pos (by simpa using hi'), getElem_load]

/-- Its checksum is the sum of the frame bytes at offsets 1 to 6 + L (R74). -/
theorem receivedMessage_sum (rx : Memory) :
    (receivedMessage rx).sum = BitVec.ofNat 8 (byteSum (rx.load 1 (6 + (rx.read 1).toNat))) := by
  rw [← byteSum_received, Message.sum, receivedMessage_payload]
  rfl

/-- Its frame is the frame received. -/
theorem receivedMessage_frame (rx : Memory) :
    (receivedMessage rx).frame = rx.load 0 (8 + (rx.read 1).toNat) := by
  rw [Message.frame, receivedMessage_payload, show 8 + (rx.read 1).toNat = 7 + ((rx.read 1).toNat + 1) by omega,
    load_add rx 0 7, load_add rx (0 + 7), List.append_assoc]
  rfl

/-- The outcome of the validation as a function of the received bytes (R150): the checked reads add none. -/
theorem validateFrame_eq (minLen : Nat) (rx : Memory) (rxLen : Nat) :
    validateFrame minLen rx rxLen =
      if rxLen < minLen then .error .tooShort
      else if rx.read 0 ≠ 0xAA#8 then .error .badHeader
      else if rxLen ≠ 8 + (rx.read 1).toNat then .error .lengthMismatch
      else if (receivedMessage rx).ck ≠ (receivedMessage rx).sum then .error .checksumMismatch
      else .ok (receivedMessage rx) := by
  unfold validateFrame
  simp only [Config.fixedFields, Config.checksumBytes, Config.headerConst,
    show 7 + (rx.read 1).toNat + 1 = 8 + (rx.read 1).toNat by omega]
  split
  · rfl
  · split
    · rfl
    · split
      · rfl
      · next h =>
        rw [extractFields_ok (by simpa using h), receivedMessage_sum]
        simp only [Staged.sum, Staged.commit, byteSum_received, ne_comm, receivedMessage]

/-- A validation that succeeds has passed every check and gives the Message received (R147, R150). -/
theorem validateFrame_ok {minLen : Nat} {rx : Memory} {rxLen : Nat} {m : Message}
    (h : validateFrame minLen rx rxLen = .ok m) :
    m = receivedMessage rx ∧ minLen ≤ rxLen ∧ rx.read 0 = 0xAA#8 ∧ rxLen = 8 + (rx.read 1).toNat ∧
      (receivedMessage rx).ck = (receivedMessage rx).sum := by
  rw [validateFrame_eq] at h
  split at h
  · cases h
  · split at h
    · cases h
    · split at h
      · cases h
      · split at h
        · cases h
        · next h1 h2 h3 h4 =>
          exact ⟨by simpa using h.symm, by omega, by simpa using h2, by simpa using h3, by simpa using h4⟩

end Sys2Proof.Laws
end

