-- ==== Sys2Proof/Laws/Commands.lean ====
section
/-! SUPPORT. What each command can do, said once: if it answers a next state, FATAL was 0 and the next state is
this one. No command faults, and a command is refused exactly while FATAL = 1. -/

namespace Sys2Proof.Laws

open Sys2Proof.Machine

@[simp] theorem accepting_next (s : State) (r : Host.Outcome State Fault Refusal) (t : State) :
    s.accepting r = .next t ↔ s.fatal = false ∧ r = .next t := by
  unfold State.accepting
  split <;> simp_all

@[simp] theorem accepting_of_fatal {s : State} (h : s.fatal = true) (r : Host.Outcome State Fault Refusal) :
    s.accepting r = .refused .fatalStop := by
  simp [State.accepting, h]

@[simp] theorem accepting_of_ready {s : State} (h : s.fatal = false) (r : Host.Outcome State Fault Refusal) :
    s.accepting r = r := by
  simp [State.accepting, h]

/-- The Message LOAD_DEFAULT loads is the default constant (R44, R101). -/
theorem sealed_default :
    Message.seal
      { hdr := Config.headerConst, len := 0, dev := Config.defaultDeviceAddr, grp := Config.deviceClass.group
        log := Config.defaultLogicGroup, drv := Config.defaultDriverAddr, fn := Config.defaultFunctionCode
        pay := filledStore [], ck := 0 } = Message.default Config.deviceClass := by
  have h : filledStore [] = Vector.replicate 255 0 := Vector.ext fun i hi => by simp
  rw [h]
  simp [Message.seal, Message.default, Message.sum, Message.payload]

/-- LOAD_DEFAULT either is refused, or loads the default constant and completes (R101). -/
theorem execLoadDefault_eq (s : State) :
    execLoadDefault s = s.accepting (.next (State.complete { s with m := Message.default Config.deviceClass })) := by
  rw [execLoadDefault, sealed_default]

/-- ENCODE either is refused, or stores the frame and completes: it neither overflows nor faults (R130, R134). -/
theorem execEncode_eq (s : State) :
    execEncode s = s.accepting (.next (State.complete
      { s with txb := s.txb.store 0 s.m.frame, txLen := BitVec.ofNat 9 s.m.wireSize })) := by
  simp only [execEncode, writeFrame_ok]

/-- SET_PAYLOAD_HEX either is refused, or takes the error and leaves M, or completes (R105). -/
theorem execSetPayloadHex_cases {s t : State} (h : execSetPayloadHex s = .next t) :
    s.fatal = false ∧
      ((parseHex s.argBytes = none ∧ t = s.takeError .invalidHexToken) ∨
       (∃ bs, parseHex s.argBytes = some bs ∧
          t = State.complete { s with m := Message.seal { s.m with pay := overwrittenStore s.m.pay s.m.len.toNat bs } })) := by
  obtain ⟨hf, h⟩ := (accepting_next ..).1 h
  refine ⟨hf, ?_⟩
  cases hp : parseHex s.argBytes with
  | none => rw [hp] at h; exact .inl ⟨rfl, by simpa using h.symm⟩
  | some bs => rw [hp] at h; exact .inr ⟨bs, rfl, by simpa using h.symm⟩

/-- DECODE either is refused, or takes the error of its first failing check and leaves M, or loads M (R140). -/
theorem execDecode_cases {s t : State} (h : execDecode s = .next t) :
    s.fatal = false ∧
      ((∃ k, validateFrame Config.minFrameLen s.rxb s.rxLen = .error k ∧ t = s.takeError k) ∨
       (∃ m, validateFrame Config.minFrameLen s.rxb s.rxLen = .ok m ∧ t = State.complete { s with m := m })) := by
  obtain ⟨hf, h⟩ := (accepting_next ..).1 h
  refine ⟨hf, ?_⟩
  cases hv : validateFrame Config.minFrameLen s.rxb s.rxLen with
  | error k => rw [hv] at h; exact .inl ⟨k, rfl, by simpa using h.symm⟩
  | ok m => rw [hv] at h; exact .inr ⟨m, rfl, by simpa using h.symm⟩

/-- An error of the validation is one of four: DECODE never ends in `OutOfBounds` (R149). -/
theorem validateFrame_error {minLen : Nat} {rx : Memory} {rxLen : Nat} {k : ErrorKind}
    (h : validateFrame minLen rx rxLen = .error k) :
    k = .tooShort ∨ k = .badHeader ∨ k = .lengthMismatch ∨ k = .checksumMismatch := by
  rw [validateFrame_eq] at h
  split at h
  · exact .inl (by simpa using h.symm)
  · split at h
    · exact .inr (.inl (by simpa using h.symm))
    · split at h
      · exact .inr (.inr (.inl (by simpa using h.symm)))
      · split at h
        · exact .inr (.inr (.inr (by simpa using h.symm)))
        · cases h

/-- What such an error does: it rejects a frame, it is recoverable, and its code is one of 1, 2, 3 and 5. -/
theorem validateFrame_error_kind {minLen : Nat} {rx : Memory} {rxLen : Nat} {k : ErrorKind}
    (h : validateFrame minLen rx rxLen = .error k) :
    k.rejectsFrame = true ∧ k.isFatal = false ∧ (k.code = 1 ∨ k.code = 2 ∨ k.code = 3 ∨ k.code = 5) := by
  rcases validateFrame_error h with rfl | rfl | rfl | rfl <;> decide

/-- SET_PAYLOAD_HEX on an argument that parses (R105). -/
theorem execSetPayloadHex_ok {s : State} (hf : s.fatal = false) {bs : List Byte} (hp : parseHex s.argBytes = some bs) :
    execSetPayloadHex s = .next (State.complete
      { s with m := Message.seal { s.m with pay := overwrittenStore s.m.pay s.m.len.toNat bs } }) := by
  rw [execSetPayloadHex, accepting_of_ready hf, hp]

/-- SET_PAYLOAD_HEX on an argument that does not (R105, R167). -/
theorem execSetPayloadHex_malformed {s : State} (hf : s.fatal = false) (hp : parseHex s.argBytes = none) :
    execSetPayloadHex s = .next (s.takeError .invalidHexToken) := by
  rw [execSetPayloadHex, accepting_of_ready hf, hp]

/-- DECODE on bytes that validate (R140). -/
theorem execDecode_ok {s : State} (hf : s.fatal = false) {m : Message}
    (hv : validateFrame Config.minFrameLen s.rxb s.rxLen = .ok m) :
    execDecode s = .next (State.complete { s with m := m }) := by
  rw [execDecode, accepting_of_ready hf, hv]

/-- DECODE on bytes that do not (R140, R172). -/
theorem execDecode_rejected {s : State} (hf : s.fatal = false) {k : ErrorKind}
    (hv : validateFrame Config.minFrameLen s.rxb s.rxLen = .error k) :
    execDecode s = .next (s.takeError k) := by
  rw [execDecode, accepting_of_ready hf, hv]

/-- The next state of a command, one constructor per way a command can end: everything a command can do. -/
inductive CommandEnds (s : State) : Instr → State → Prop
  | loadDefault : CommandEnds s .loadDefault (State.complete { s with m := Message.default Config.deviceClass })
  | construct (hdr : Byte) (lenIn : Nat) (dev grp log drv fn ckSeed : Byte) :
    CommandEnds s (.construct hdr lenIn dev grp log drv fn ckSeed) (State.complete
      { s with
        m := Message.seal
          { hdr, len := BitVec.ofNat 8 (clampLength lenIn), dev, grp, log, drv, fn
            pay := filledStore (s.sourceBytes (clampLength lenIn)), ck := 0 } })
  | setPayloadText : CommandEnds s .setPayloadText (State.complete
      { s with
        m := Message.seal
          { s.m with
            pay := filledStore (s.arg.load 0 (clampLength s.argLen))
            len := BitVec.ofNat 8 (clampLength s.argLen) } })
  | setPayloadHex (bs : List Byte) (parsed : parseHex s.argBytes = some bs) :
    CommandEnds s .setPayloadHex (State.complete
      { s with m := Message.seal { s.m with pay := overwrittenStore s.m.pay s.m.len.toNat bs } })
  | malformedHex (malformed : parseHex s.argBytes = none) :
    CommandEnds s .setPayloadHex (s.takeError .invalidHexToken)
  | checksum : CommandEnds s .checksum (State.complete { s with m := s.m.seal, res := s.m.sum.setWidth 9 })
  | wireSize : CommandEnds s .wireSize (State.complete { s with res := BitVec.ofNat 9 s.m.wireSize })
  | encode : CommandEnds s .encode (State.complete
      { s with txb := s.txb.store 0 s.m.frame, txLen := BitVec.ofNat 9 s.m.wireSize })
  | decode (valid : validateFrame Config.minFrameLen s.rxb s.rxLen = .ok (receivedMessage s.rxb)) :
    CommandEnds s .decode (State.complete { s with m := receivedMessage s.rxb })
  | rejected (k : ErrorKind) (invalid : validateFrame Config.minFrameLen s.rxb s.rxLen = .error k) :
    CommandEnds s .decode (s.takeError k)

/-- A command that answers a next state was accepted with FATAL = 0, and ended in one of these ways. -/
theorem exec_cases {i : Instr} {s t : State} (hc : isCommand i = true) (h : exec i s = .next t) :
    s.fatal = false ∧ CommandEnds s i t := by
  cases i with
  | loadDefault =>
    rw [show exec .loadDefault s = execLoadDefault s from rfl, execLoadDefault_eq] at h
    obtain ⟨hf, h⟩ := (accepting_next ..).1 h
    cases h
    exact ⟨hf, .loadDefault⟩
  | construct =>
    obtain ⟨hf, h⟩ := (accepting_next ..).1 h
    cases h
    exact ⟨hf, .construct ..⟩
  | setPayloadText =>
    obtain ⟨hf, h⟩ := (accepting_next ..).1 h
    cases h
    exact ⟨hf, .setPayloadText⟩
  | setPayloadHex =>
    obtain ⟨hf, ⟨hp, rfl⟩ | ⟨bs, hp, rfl⟩⟩ := execSetPayloadHex_cases h
    · exact ⟨hf, .malformedHex hp⟩
    · exact ⟨hf, .setPayloadHex bs hp⟩
  | checksum =>
    obtain ⟨hf, h⟩ := (accepting_next ..).1 h
    cases h
    exact ⟨hf, .checksum⟩
  | wireSize =>
    obtain ⟨hf, h⟩ := (accepting_next ..).1 h
    cases h
    exact ⟨hf, .wireSize⟩
  | encode =>
    rw [show exec .encode s = execEncode s from rfl, execEncode_eq] at h
    obtain ⟨hf, h⟩ := (accepting_next ..).1 h
    cases h
    exact ⟨hf, .encode⟩
  | decode =>
    obtain ⟨hf, ⟨k, hk, rfl⟩ | ⟨m, hm, rfl⟩⟩ := execDecode_cases h
    · exact ⟨hf, .rejected k hk⟩
    · obtain rfl := (validateFrame_ok hm).1
      exact ⟨hf, .decode hm⟩
  | frame => cases hc

/-- A fetched move is the head of the host's moves. -/
theorem fetch_eq {s s' : State} {mv : HostMove} (h : s.fetch = some (mv, s')) :
    ∃ rest, s.host = mv :: rest ∧ s' = { s with host := rest } := by
  unfold State.fetch at h
  split at h
  · cases h
  · next hh => cases h; exact ⟨_, hh, rfl⟩

/-- What a step can do: run a decoded instruction, receive bytes that are no legal frame, or let the host act
between commands. -/
theorem step_cases {s t : State} (h : step s = .next t) :
    ∃ mv rest, s.host = mv :: rest ∧
      ((∃ p i, mv = .present p ∧ decode p = .ok i ∧ exec i { s with host := rest } = .next t) ∨
       (∃ bs e, mv = .present (.wire bs) ∧ decode (.wire bs) = .error e ∧
          t = State.placeReceived { s with host := rest } bs) ∨
       (∃ a, mv = .argument a ∧ t = State.placeArgument { s with host := rest } a) ∨
       (mv = .loopBack ∧ t = State.loopBack { s with host := rest }) ∨
       (mv = .reset ∧ t = State.resetBlock { s with host := rest })) := by
  unfold step at h
  split at h
  · cases h
  · next p s' hf =>
    obtain ⟨rest, hh, rfl⟩ := fetch_eq hf
    refine ⟨_, rest, hh, ?_⟩
    split at h
    · next i hd => exact .inl ⟨p, i, rfl, hd, h⟩
    · next e hd =>
      cases p with
      | command c => cases h
      | wire bs => exact .inr (.inl ⟨bs, e, rfl, hd, by simpa [State.presentOther] using h.symm⟩)
  · next a s' hf =>
    obtain ⟨rest, hh, rfl⟩ := fetch_eq hf
    exact ⟨_, rest, hh, .inr (.inr (.inl ⟨a, rfl, by simpa using h.symm⟩))⟩
  · next s' hf =>
    obtain ⟨rest, hh, rfl⟩ := fetch_eq hf
    exact ⟨_, rest, hh, .inr (.inr (.inr (.inl ⟨rfl, by simpa using h.symm⟩)))⟩
  · next s' hf =>
    obtain ⟨rest, hh, rfl⟩ := fetch_eq hf
    exact ⟨_, rest, hh, .inr (.inr (.inr (.inr ⟨rfl, by simpa using h.symm⟩)))⟩

end Sys2Proof.Laws
end

