-- ==== Sys2Proof/Laws/Frames.lean ====
section
/-! SUPPORT. A frame stored in a buffer: what its offsets read as, and which Message it stands for. A proof about a
Message whose store is a `filledStore` or an `overwrittenStore` rewrites with the lemmas of Laws/State.lean and
Laws/Message.lean: comparing two such stores by unfolding walks through all 255 bytes. -/

namespace Sys2Proof.Laws

open Sys2Proof.Machine

/-- A store filled with no more bytes than LEN has a zero tail (R26, I2). -/
theorem tailZero_of_filledStore {m : Message} {bs : List Byte} (h : m.pay = filledStore bs)
    (hl : bs.length ≤ m.len.toNat) : m.TailZero := by
  intro i hi
  by_cases h' : i < 255
  · rw [payAt_eq _ h']
    simp only [h, getElem_filledStore]
    rw [List.getD_eq_getElem?_getD, List.getElem?_eq_none (by omega)]
    rfl
  · rw [payAt_outside _ (by omega)]

/-- Messages agree when their eight one-byte fields and their stores do (R28). -/
theorem message_ext {a b : Message} (hdr : a.hdr = b.hdr) (len : a.len = b.len) (dev : a.dev = b.dev)
    (grp : a.grp = b.grp) (log : a.log = b.log) (drv : a.drv = b.drv) (fn : a.fn = b.fn) (pay : a.pay = b.pay)
    (ck : a.ck = b.ck) : a = b := by
  cases a
  cases b
  simp only [Message.mk.injEq]
  exact ⟨hdr, len, dev, grp, log, drv, fn, pay, ck⟩

/-- The bytes of a buffer after a frame has been stored at offset 0. -/
theorem read_store_frame {mem : Memory} (hw : mem.wf = true) (m : Message) (i : Nat) :
    (mem.store 0 m.frame).read i = if i < 8 + m.len.toNat then m.frame.getD i 0 else mem.read i := by
  rw [read_store hw]
  simp [wireSize_eq]

/-- A buffer that starts with the frame of a Message with a zero tail stands for that Message (R135). -/
theorem receivedMessage_store_frame {mem : Memory} (hw : mem.wf = true) {m : Message} (ht : m.TailZero) :
    receivedMessage (mem.store 0 m.frame) = m := by
  have hr := read_store_frame hw m
  have hf := getD_frame_fixed m
  have fixed : ∀ i, i < 8 → (mem.store 0 m.frame).read i = m.frame.getD i 0 := fun i hi => by
    rw [hr, if_pos (by omega)]
  have hl : (mem.store 0 m.frame).read 1 = m.len := (fixed 1 (by omega)).trans hf.2.1
  refine message_ext ((fixed 0 (by omega)).trans hf.1) hl ((fixed 2 (by omega)).trans hf.2.2.1)
    ((fixed 3 (by omega)).trans hf.2.2.2.1) ((fixed 4 (by omega)).trans hf.2.2.2.2.1)
    ((fixed 5 (by omega)).trans hf.2.2.2.2.2.1) ((fixed 6 (by omega)).trans hf.2.2.2.2.2.2) ?_ ?_
  · refine pay_ext fun i hi => ?_
    rw [receivedMessage_payAt, hl]
    split
    · next h => rw [hr, if_pos (by omega), getD_frame_payload _ h]
    · next h => rw [ht _ (by omega)]
  · show (mem.store 0 m.frame).read (7 + ((mem.store 0 m.frame).read 1).toNat) = _
    rw [hl, hr, if_pos (by omega), getD_frame_checksum]

end Sys2Proof.Laws
end

