-- ==== Sys2Proof/Laws/PerInstr.lean ====
section
/-! SUPPORT. Statements about every instruction as syntax, one lemma per constructor. -/

/-- The encoding of a well-formed instruction stands in the opcode table: a command has one of the eight codes
(R80), a frame starts with the header byte and has 8 to 263 bytes (R72, R73). -/
def Sys2Proof.Laws.EncodingInTable.Statement (i : Sys2Proof.Instr) : Prop :=
  i.wellFormed = true →
    match Sys2Proof.encode i with
    | .command c => 1 ≤ c.cmd.toNat ∧ c.cmd.toNat ≤ 8
    | .wire bs => bs.head? = some 0xAA#8 ∧ 8 ≤ bs.length ∧ bs.length ≤ 263

namespace Sys2Proof.Laws.EncodingInTable

theorem loadDefault : Statement .loadDefault := fun _ => (by decide : 1 ≤ (0x1#4).toNat ∧ (0x1#4).toNat ≤ 8)

theorem construct (hdr : Byte) (lenIn : Nat) (dev grp log drv fn ckSeed : Byte) :
    Statement (.construct hdr lenIn dev grp log drv fn ckSeed) := fun _ =>
  (by decide : 1 ≤ (0x2#4).toNat ∧ (0x2#4).toNat ≤ 8)

theorem setPayloadText : Statement .setPayloadText := fun _ => (by decide : 1 ≤ (0x3#4).toNat ∧ (0x3#4).toNat ≤ 8)

theorem setPayloadHex : Statement .setPayloadHex := fun _ => (by decide : 1 ≤ (0x4#4).toNat ∧ (0x4#4).toNat ≤ 8)

theorem checksum : Statement .checksum := fun _ => (by decide : 1 ≤ (0x5#4).toNat ∧ (0x5#4).toNat ≤ 8)

theorem wireSize : Statement .wireSize := fun _ => (by decide : 1 ≤ (0x6#4).toNat ∧ (0x6#4).toNat ≤ 8)

theorem encode : Statement .encode := fun _ => (by decide : 1 ≤ (0x7#4).toNat ∧ (0x7#4).toNat ≤ 8)

theorem decode : Statement .decode := fun _ => (by decide : 1 ≤ (0x8#4).toNat ∧ (0x8#4).toNat ≤ 8)

theorem frame (f : WireFrame) : Statement (.frame f) := by
  intro h
  simp only [Instr.wellFormed, Bool.and_eq_true, WireFrame.headerOk, WireFrame.lengthOk, beq_iff_eq] at h
  obtain ⟨⟨h1, h2⟩, _⟩ := h
  have hl := f.dataLen.isLt
  refine ⟨congrArg some h1, ?_⟩
  simp [WireFrame.bytes, h2]
  omega

end Sys2Proof.Laws.EncodingInTable
end

