-- ==== Sys2Proof/Tests/Slice0.lean ====
section
/-! SUPPORT. The model's own tests. The expected values are those of spec/95_test_vectors.md, cited by their ids there,
and of the rules named. After them, for every obligation with hypotheses, states and operands that meet them all. -/

namespace Sys2Proof.Tests

open Sys2Proof.Machine

/-! ### Helpers -/

/-- A part of the next state, none where the step stops. -/
def after {α : Type} (o : Host.Outcome State Fault Refusal) (part : State → α) : Option α :=
  match o with
  | .next s => some (part s)
  | .fault _ => none
  | .refused _ => none

/-- The name of a refusal. -/
def refusal (o : Host.Outcome State Fault Refusal) : Option Refusal :=
  match o with
  | .next _ => none
  | .fault _ => none
  | .refused r => some r

/-- The reset state with another Message. -/
def holding (m : Message) : State := { State.reset with m := m }

/-- `{AA LEN C8 91 C8 01 53 | payload | CK}`, the notation of 95_test_vectors.md with the header bytes of S1. -/
def msg (payload : List Byte) (ck : Byte) : Message :=
  { hdr := 0xAA, len := BitVec.ofNat 8 payload.length, dev := 0xC8, grp := 0x91, log := 0xC8, drv := 0x01, fn := 0x53
    pay := filledStore payload, ck := ck }

/-- The start state of the vectors T and H: the Message of B2. -/
def startB2 : State := holding (msg [0, 0, 0, 0] 0x79)

/-- The frame of V4. -/
def frameV4 : List Byte := [0xAA, 0x00, 0xC8, 0x91, 0xC8, 0x01, 0x53, 0x75]

/-- The frame of V10. -/
def frameV10 : List Byte := [0xAA, 0x04, 0xC8, 0x91, 0xC8, 0x01, 0x53, 0x01, 0x02, 0x03, 0x00, 0x7F]

/-- The text "01 02 03" of H1. -/
def textH1 : List Byte := [0x30, 0x31, 0x20, 0x30, 0x32, 0x20, 0x30, 0x33]

/-- The frame of V4 as the FRAME row. -/
def wireV4 : WireFrame :=
  { header := 0xAA, dataLen := 0, deviceAddr := 0xC8, deviceGroup := 0x91, logicGroup := 0xC8, driverAddr := 0x01
    functionCode := 0x53, payload := [], checksum := 0x75 }

/-- The largest frame, from K11: 255 payload bytes FF, checksum FB. -/
def wireLargest : WireFrame :=
  { header := 0xAA, dataLen := 0xFF, deviceAddr := 0xFF, deviceGroup := 0xFF, logicGroup := 0xFF, driverAddr := 0xFF
    functionCode := 0xFF, payload := List.replicate 255 0xFF, checksum := 0xFB }

/-! ### Well-formedness: one ill-formed term for each check (R71) -/

theorem test_wellFormed_accepts : (Instr.frame wireV4).wellFormed = true := by decide

theorem test_wellFormed_header : (Instr.frame { wireV4 with header := 0x55 }).wellFormed = false := by decide

theorem test_wellFormed_length : (Instr.frame { wireV4 with dataLen := 0x01, checksum := 0x76 }).wellFormed = false := by
  decide

theorem test_wellFormed_checksum : (Instr.frame { wireV4 with checksum := 0x25 }).wellFormed = false := by decide

/-! ### Decoding: the codes of R80 and the bytes of V4 and V10 -/

theorem test_decode_codes :
    [0b0001, 0b0010, 0b0011, 0b0100, 0b0101, 0b0110, 0b0111, 0b1000].map (decodeTableWord 8) =
      [.loadDefault, .construct 0 0 0 0 0 0 0 0, .setPayloadText, .setPayloadHex, .checksum, .wireSize, .encode,
        .decode].map some := by decide

/-- R81: the operands of B3 come from their own lines. -/
theorem test_decode_construct :
    decode (.command { cmd := 0b0010, hdr := 0xAA, lenIn := 4, dev := 0xC8, grp := 0x91, log := 0xC8, drv := 0x01
                       fn := 0x53, ckSeed := 0xFF }) =
      .ok (.construct 0xAA 4 0xC8 0x91 0xC8 0x01 0x53 0xFF) := by decide

theorem test_decode_reserved :
    [0b0000, 0b1001, 0b1111].map (decodeTableWord 8) = [none, none, none] := by decide

/-- V4, as the number whose byte 0 is AA. -/
theorem test_decode_frame : decodeTableWord 64 0x755301C891C800AA = some (.frame wireV4) := by decide

theorem test_decode_frame_payload :
    decode (.wire frameV10) =
      .ok (.frame { wireV4 with dataLen := 0x04, payload := [0x01, 0x02, 0x03, 0x00], checksum := 0x7F }) := by decide

/-- V2, V5, V7 and V19 are no frames. -/
theorem test_decode_frame_refused :
    decode (.wire [0xAA, 0x00, 0xC8, 0x91, 0xC8, 0x01, 0x53]) = .error .frameTooShort ∧
    decode (.wire [0x55, 0x00, 0xC8, 0x91, 0xC8, 0x01, 0x53, 0x75]) = .error .frameHeader ∧
    decode (.wire (frameV4 ++ [0x00])) = .error .frameLength ∧
    decode (.wire [0xAA, 0x00, 0xC8, 0x91, 0xC8, 0x01, 0x53, 0x25]) = .error .frameChecksum := by decide

/-! ### The commands -/

/-- R101: the Message of K3. -/
theorem test_loadDefault :
    after (exec .loadDefault startB2) (fun t => (t.m.frame, t.status)) =
      some ([0xAA, 0x00, 0xC8, 0x91, 0xC8, 0x01, 0x00, 0x22], 0) := by decide +kernel

/-- B3: a short argument is zero-padded, the seed is ignored. -/
theorem test_construct_short :
    after (exec (.construct 0xAA 4 0xC8 0x91 0xC8 0x01 0x53 0xFF) (State.reset.placeArgument (some [0x10, 0x20])))
      (fun t => t.m.frame) = some [0xAA, 0x04, 0xC8, 0x91, 0xC8, 0x01, 0x53, 0x10, 0x20, 0x00, 0x00, 0xA9] := by
  decide +kernel

/-- B6: the length 256 saturates. -/
theorem test_construct_saturates :
    after (exec (.construct 0xAA 256 0 0 0 0 0 0) State.reset) (fun t => (t.m.len, t.status)) = some (0xFF, 0) := by
  decide +kernel

/-- T1: the length follows the argument. -/
theorem test_setPayloadText :
    after (exec .setPayloadText (startB2.placeArgument (some [0x48, 0x69, 0x21]))) (fun t => t.m.frame) =
      some [0xAA, 0x03, 0xC8, 0x91, 0xC8, 0x01, 0x53, 0x48, 0x69, 0x21, 0x4A] := by decide +kernel

/-- T3: 300 bytes are cut to 255. -/
theorem test_setPayloadText_long :
    after (exec .setPayloadText (startB2.placeArgument (some (List.replicate 300 0x41))))
      (fun t => (t.m.len, t.m.ck)) = some (0xFF, 0x33) := by decide +kernel

/-- H1: padded to the length M has. -/
theorem test_setPayloadHex :
    after (exec .setPayloadHex (startB2.placeArgument (some textH1))) (fun t => (t.m.frame, t.status)) =
      some (frameV10, 0) := by decide +kernel

/-- H2: "ZZ" is refused as a token, M stays. -/
theorem test_setPayloadHex_malformed :
    after (exec .setPayloadHex (startB2.placeArgument (some [0x5A, 0x5A]))) (fun t => (t.m, t.status)) =
      some (startB2.m, 6) := by decide +kernel

/-- H6, H9 and H10: both prefixes, either case, tab and line feed; the malformed tokens "0x1", "0G", "01,02" and one
behind four good ones. -/
theorem test_parseHex :
    parseHex [0x30, 0x78, 0x30, 0x61, 0x20, 0x30, 0x58, 0x30, 0x42, 0x09, 0x30, 0x63, 0x0A] = some [0x0A, 0x0B, 0x0C] ∧
    parseHex [0x30, 0x78, 0x31] = none ∧ parseHex [0x30, 0x47] = none ∧
    parseHex [0x30, 0x31, 0x2C, 0x30, 0x32] = none ∧ parseHex (textH1 ++ [0x20, 0x30, 0x34, 0x20, 0x30, 0x78]) = none ∧
    parseHex [] = some [] := by decide

/-- K1 from a Message whose cached checksum is wrong. -/
theorem test_checksum :
    after (exec .checksum (holding (msg [] 0x00))) (fun t => (t.m.ck, t.res)) = some (0x75, 0x075) := by decide +kernel

/-- K13: bytes of the store at LEN and above are not summed. -/
theorem test_checksum_tail :
    after (exec .checksum (holding { msg [0x10, 0x20, 0x30, 0x40, 0x50] 0 with len := 2 })) (fun t => t.res) =
      some 0xA7 := by decide +kernel

/-- W1 and W3. -/
theorem test_wireSize :
    after (exec .wireSize (holding (msg [] 0x75))) (fun t => t.res) = some 8 ∧
    after (exec .wireSize (holding { msg [] 0 with len := 0xFF })) (fun t => t.res) = some 263 := by decide +kernel

/-- W2. -/
theorem test_encode :
    after (exec .encode (holding (msg [0x01, 0x02, 0x03, 0x00] 0x7F))) (fun t => (t.txFrame, t.txLen)) =
      some (frameV10, 12) := by decide +kernel

/-- B7: a header that is not 0xAA is emitted as it is. -/
theorem test_encode_header :
    after (exec .encode (holding { msg [0x10, 0x20] 0xA7 with hdr := 0x55 })) (fun t => t.txFrame) =
      some [0x55, 0x02, 0xC8, 0x91, 0xC8, 0x01, 0x53, 0x10, 0x20, 0xA7] := by decide +kernel

/-- V10, with the store above the payload zero. -/
theorem test_decode :
    after (exec .decode (State.reset.placeReceived frameV10)) (fun t => (t.m, t.status)) =
      some (msg [0x01, 0x02, 0x03, 0x00] 0x7F, 0) := by decide +kernel

/-- V3, V6, V7 and V11: the first failing check names the error. -/
theorem test_decode_errors :
    [[0x55, 0x00, 0xC8, 0x91, 0xC8], [0x55, 0xFF, 0, 0, 0, 0, 0, 0, 0, 0, 0], frameV4 ++ [0x00],
        [0xAA, 0x04, 0xC8, 0x91, 0xC8, 0x01, 0x53, 0x01, 0x02, 0x04, 0x00, 0x7F]].map
      (fun bs => after (exec .decode (State.reset.placeReceived bs)) (fun t => t.status)) =
      [some 1, some 2, some 3, some 5] := by decide +kernel

/-- FRAME: the bytes of V4 stand in RXB. -/
theorem test_frame :
    after (exec (.frame wireV4) State.reset) (fun t => (t.rxBytes, t.rxLen)) = some (frameV4, 8) := by decide

/-- X1 and X2. -/
theorem test_refusals :
    refusal (step (State.reset.withFetchWord 8 0x0)) = some (.reservedCommand 0x0) ∧
    refusal (step (State.reset.withFetchWord 8 0xF)) = some (.reservedCommand 0xF) ∧
    refusal (step ({ State.reset with fatal := true }.withFetchWord 8 0x1)) = some .fatalStop ∧
    refusal (step State.reset) = some .idle := by decide

/-- A checked write past the capacity is `BufferOverflow` (R57); one past TXB is outside it. -/
theorem test_checkedWrite :
    checkedWrite 8 { off := 8, txb := [] } 0 = .error .overflow ∧
    checkedWrite 300 { off := 263, txb := [] } 0 = .error (.outside 263) := by decide

/-- R168, R172: the fatal error clears TXLEN and sets FATAL. -/
theorem test_takeError_fatal :
    let t := State.takeError { State.reset with txLen := 8 } .bufferOverflow
    (t.txLen, t.status, t.fatal, t.event) = (0, 7, true, none) := by decide

/-- A checked read past the end is `OutOfBounds`, and one of no bytes at the end is not (R56). -/
theorem test_checkedRead :
    checkedRead [] 8 8 1 = .error .outOfBounds ∧ checkedRead [] 8 8 0 = .ok ([], 8) := by decide

/-- With MIN_FRAME_LEN = 9 the frame of V4 is too short (column "with 9" of section 2.5). -/
theorem test_minFrameLen_nine :
    (validateFrame 9 (Memory.store [] 0 frameV4) 8).toOption = none := by decide

/-- K4: the default constant of the other device class. -/
theorem test_default_second : (Message.default .second).frame = [0xAA, 0x00, 0xC8, 0xA1, 0xC8, 0x01, 0x00, 0x32] := by
  decide

/-- A buffer lists no byte that an unlisted offset reads as: writing it removes the entry. -/
theorem test_memory_canonical :
    Memory.write [(3, 0x10)] 3 0 = [] ∧ Memory.write [(3, 0x10)] 1 5 = [(1, 5), (3, 0x10)] ∧
    State.reset.txb.wf = true ∧ State.reset.rxb.wf = true ∧ State.reset.arg.wf = true := by decide

/-! ### Witnesses: the hypotheses of the obligations can be met -/

/-- A state whose host presents a command. -/
def presenting (c : BitVec 4) : State := { State.reset with host := [.present (.command (.ofCode c))] }

/-- The Message of the reset state is valid (R44). -/
theorem valid_default : (Message.default .first).Valid :=
  ⟨by decide, by decide, Laws.tailZero_of_filledStore (bs := [])
    (Vector.ext fun i hi => by simp [Message.default]) (Nat.zero_le _)⟩

theorem witness_DecodeEncodeRoundTrip :
    (Instr.frame wireV4).wellFormed = true ∧ (Instr.frame wireLargest).wellFormed = true ∧
    (Instr.construct 0xAA 1000 0 0 0 0 0 0).wellFormed = true := by decide +kernel

theorem witness_DecodedPresentationEncodesBack :
    decode (.wire frameV4) = .ok (.frame wireV4) ∧
    decode (.command (.ofCode 0x1)) = .ok .loadDefault ∧ decode (.command (.ofCode 0x8)) = .ok .decode ∧
    (CommandLines.ofCode 0x2).cmd = 0x2 ∧ decode (.command (.ofCode 0x2)) = .ok (.construct 0 0 0 0 0 0 0 0) := by decide

theorem witness_TableWordsNameTheirRows : (0 < 16 ∧ 0 = 0) ∧ (9 < 16 ∧ 9 ≤ 9) ∧ (15 < 16 ∧ 9 ≤ 15) := by decide

theorem witness_StepRunsDecodedInstruction :
    (presenting 0x5).host = [.present (.command (.ofCode 0x5))] ∧
    decode (.command (.ofCode 0x5)) = .ok .checksum := by decide

/-- Every clause at the ends of its range of codes: 0 and 9 and 15 reserved, 1 and 8 accepted, with FATAL 0 and 1. -/
theorem witness_CommandCodesAcceptedOrRefused :
    (∀ c : BitVec 4, (presenting c).host = [.present (.command (.ofCode c))]) ∧
    (9 ≤ (0x9 : BitVec 4).toNat ∧ 9 ≤ (0xF : BitVec 4).toNat) ∧
    (1 ≤ (0x1 : BitVec 4).toNat ∧ (0x8 : BitVec 4).toNat ≤ 8) ∧
    (presenting 0x1).fatal = false ∧ { presenting 0x8 with fatal := true }.fatal = true := by decide

theorem witness_HostMovesPlaceBytes :
    State.reset.rxb.wf = true ∧ State.reset.arg.wf = true ∧
    { State.reset with host := [.present (.wire [])] }.host = [.present (.wire [])] ∧
    { State.reset with host := [.present (.wire frameV4)] }.host = [.present (.wire frameV4)] ∧
    { State.reset with host := [.argument (some textH1)] }.host = [.argument (some textH1)] ∧
    { State.reset with host := [.argument none] }.host = [.argument none] ∧
    { State.reset with host := [.loopBack] }.host = [.loopBack] := by decide

theorem witness_FrameDelivery :
    (Instr.frame wireV4).wellFormed = true ∧ (Instr.frame wireLargest).wellFormed = true ∧
    State.reset.rxb.wf = true := by decide +kernel

theorem witness_DeliveredFrameDecodes :
    (Instr.frame wireV4).wellFormed = true ∧ State.reset.fatal = false ∧ State.reset.rxb.wf = true ∧
    exec (.frame wireV4) State.reset = .next (State.reset.placeReceived wireV4.bytes) :=
  ⟨by decide, rfl, rfl, rfl⟩

theorem witness_AccumulatorWidthIsUnobservable : 8 ≤ 8 ∧ 8 ≤ 17 := by decide

theorem witness_LoadDefaultResult : startB2.fatal = false ∧ State.reset.fatal = false := by decide

theorem witness_ConstructResult :
    State.reset.fatal = false ∧ (State.reset.placeArgument (some [0x10, 0x20])).fatal = false ∧
    (State.reset.placeArgument (some [0x10, 0x20])).argPresent = true ∧ State.reset.argPresent = false := by decide

theorem witness_ConstructReadsOnlyItsOperands :
    let s := State.reset.placeArgument (some [0x10, 0x20, 0x30])
    let s' := State.reset.placeArgument (some [0x10, 0x20, 0x40])
    s'.argPresent = s.argPresent ∧ s'.argLen = s.argLen ∧
    (∀ a, a < min (min 2 255) s.argLen → s'.arg.read a = s.arg.read a) ∧
    (∃ t, exec (.construct 0xAA 2 1 2 3 4 5 0x00) s = .next t) ∧
    (∃ t', exec (.construct 0xAA 2 1 2 3 4 5 0xFF) s' = .next t') :=
  ⟨rfl, rfl, by decide, ⟨_, rfl⟩, ⟨_, rfl⟩⟩

theorem witness_SetPayloadTextResult :
    (startB2.placeArgument (some (List.replicate 300 0x41))).fatal = false ∧
    (startB2.placeArgument (some [])).fatal = false := by decide

theorem witness_SetPayloadHexResult :
    (startB2.placeArgument (some textH1)).fatal = false ∧
    parseHex (startB2.placeArgument (some textH1)).argBytes = some [0x01, 0x02, 0x03] := by decide

theorem witness_InvalidHexTokenCause :
    isCommand .setPayloadHex = true ∧
    (∃ t, exec .setPayloadHex (startB2.placeArgument (some [0x5A, 0x5A])) = .next t ∧ t.status = 6) ∧
    (∃ t, exec .setPayloadHex (startB2.placeArgument (some [])) = .next t ∧ t.status = 0) :=
  ⟨rfl, ⟨_, rfl, rfl⟩, ⟨_, rfl, rfl⟩⟩

/-- The text `\t01 ZZ\n`. -/
theorem witness_TokensAreMaximalRuns :
    (∀ b ∈ ([0x09] : List Byte), isSpace b = true) ∧
    Separated [([0x30, 0x31], [0x20]), ([0x5A, 0x5A], [0x0A])] ∧ Separated [([0x30, 0x31], [])] := by
  simp [Separated, isSpace]

theorem witness_ChecksumCommandResult :
    startB2.fatal = false ∧ startB2.m.ck = startB2.m.sum ∧ (holding (msg [] 0x00)).fatal = false := by decide +kernel

theorem witness_WireSizeCommandResult :
    State.reset.fatal = false ∧ (holding { msg [] 0 with len := 0xFF }).fatal = false := by decide

theorem witness_EncodeResult :
    State.reset.fatal = false ∧ State.reset.txb.wf = true ∧
    { State.reset with txb := [(262, 0x33)] }.txb.wf = true := by decide

theorem witness_EncodedFramePassesTheChecks :
    State.reset.txb.wf = true ∧ (∃ t, exec .encode State.reset = .next t) ∧
    State.reset.m.ck = State.reset.m.sum :=
  ⟨rfl, ⟨_, rfl⟩, by decide⟩

/-- Two spellings of one payload store. -/
theorem witness_FrameIsInjective :
    (msg [] 0x75).TailZero ∧ { msg [] 0x75 with pay := Vector.replicate 255 0 }.TailZero ∧
    (msg [] 0x75).frame = { msg [] 0x75 with pay := Vector.replicate 255 0 }.frame :=
  ⟨Laws.tailZero_of_filledStore (bs := []) rfl (by decide),
    Laws.tailZero_of_filledStore (bs := []) (Vector.ext fun i hi => by simp) (Nat.zero_le _), by decide +kernel⟩

/-- V2, V5, V7, V19 and V4: one state for each row of the outcome, at the boundary length 7 against 8. -/
theorem witness_DecodeOutcome :
    [frameV4.take 7, 0x55 :: frameV4.drop 1, frameV4 ++ [0x00], frameV4.take 7 ++ [0x25], frameV4].map
      (fun bs => after (exec .decode (State.reset.placeReceived bs)) (fun t => t.status)) =
      [some 1, some 2, some 3, some 5, some 0] := by decide +kernel

theorem witness_DecodeCommitsLegalFrame :
    let s := State.reset.placeReceived frameV10
    s.fatal = false ∧ s.rxb.read 0 = 0xAA#8 ∧ s.rxLen = 8 + (s.rxb.read 1).toNat ∧
    (s.rxb.read (s.rxLen - 1)).toNat = (∑ a ∈ Finset.Ico 1 (s.rxLen - 1), (s.rxb.read a).toNat) % 256 := by
  decide +kernel

theorem witness_RejectEventExactlyOnFailedDecode :
    (∃ t, exec .decode State.reset = .next t ∧ t.status ≠ 0) ∧ (∃ t, exec .loadDefault State.reset = .next t) ∧
    after (exec .decode (State.reset.placeReceived frameV4)) (fun t => t.status) = some 0 :=
  ⟨⟨_, rfl, by decide⟩, ⟨_, rfl⟩, by decide +kernel⟩

/-- The eight commands, each answering a next state from reset: the hypotheses of UnreachableErrors, AccessMatrix,
ChecksumRecomputed, CommandsAreIdempotent and StatusAndResultAreNeverRead, for every command their clauses name. -/
theorem witness_everyCommand :
    State.reset.txb.wf = true ∧
    ∀ i ∈ [Instr.loadDefault, .construct 0xAA 2 1 2 3 4 5 0, .setPayloadText, .setPayloadHex, .checksum, .wireSize,
        .encode, .decode],
      isCommand i = true ∧ after (exec i State.reset) (fun t => t.fatal) = some false := by decide +kernel

theorem witness_ChecksumRecomputed :
    after (exec .setPayloadHex (startB2.placeArgument (some textH1))) (fun t => t.status) = some 0 ∧
    after (exec .decode (State.reset.placeReceived frameV4)) (fun t => t.status) = some 0 := by decide +kernel

/-- Two states that differ at an offset DECODE does not read; and an RXLEN above 263. -/
theorem witness_DecodeReadsOnlyTheFrame :
    let s := State.reset.placeReceived frameV4
    let s' := { s with rxb := s.rxb.write 8 0x05 }
    s'.rxLen = s.rxLen ∧ (∀ a, a < min s.rxLen 263 → s'.rxb.read a = s.rxb.read a) ∧ s'.rxb ≠ s.rxb ∧
    after (exec .decode s) (fun t => t.status) = some 0 ∧ after (exec .decode s') (fun t => t.status) = some 0 ∧
    263 < { s with rxLen := 264 }.rxLen ∧
    after (exec .decode { s with rxLen := 264 }) (fun t => t.status) = some 3 := by decide +kernel

theorem witness_FatalRefusesEveryCommand :
    isCommand .loadDefault = true ∧ isCommand .decode = true ∧ { State.reset with fatal := true }.fatal = true := by
  decide

theorem witness_OnlyResetChangesFatal :
    ∃ t, step { State.reset with fatal := true, host := [.reset] } = .next t ∧ t.fatal ≠ true :=
  ⟨_, rfl, by decide⟩

theorem witness_ResetMoveResult :
    { startB2 with fatal := true, host := [.reset] }.host = [.reset] := by decide +kernel

theorem witness_ResetBlockIsReady : ∃ t, exec .loadDefault startB2 = .next t := ⟨_, rfl⟩

/-- A state with a command presented meets the invariant, and its step answers a next state. -/
theorem witness_StepKeepsInvariant :
    State.Inv (presenting 0x5) ∧ ∃ t, step (presenting 0x5) = .next t :=
  ⟨{ checksum   := by decide
     tailZero   := valid_default.2.2
     running    := rfl
     reachable  := by decide
     result     := by decide
     txbForm    := rfl
     rxbForm    := rfl
     argForm    := rfl
     txbInside  := fun _ _ => rfl
     framed     := .inl rfl
     eventCause := fun _ h => by cases h }, ⟨_, rfl⟩⟩

theorem witness_EncodeThenDecodeRoundTrip :
    let s := { State.reset with host := [.present (encode .encode), .loopBack, .present (encode .decode)] }
    s.fatal = false ∧ s.m.Valid ∧ s.txb.wf = true ∧ s.rxb.wf = true ∧
    s.host = [.present (encode .encode), .loopBack, .present (encode .decode)] :=
  ⟨rfl, valid_default, rfl, rfl, rfl⟩

theorem witness_DecodeThenEncodeRoundTrip :
    (State.reset.placeReceived frameV4).txb.wf = true ∧
    after (exec .decode (State.reset.placeReceived frameV4)) (fun t => t.status) = some 0 := by decide +kernel

/-- The default frame with the bytes at offsets 0, 1, 2 and 7 changed. -/
theorem witness_SingleByteCorruptionDetected :
    State.reset.fatal = false ∧ State.reset.rxb.wf = true ∧ (Message.default .first).Valid ∧
    ∀ k ∈ [0, 1, 2, 7], k < (Message.default .first).frame.length ∧ 0x55#8 ≠ (Message.default .first).frame.getD k 0 :=
  ⟨rfl, rfl, valid_default, by decide⟩

/-- The prefixes of lengths 7 and 8 of a 9-byte frame, one on each side of the threshold. -/
theorem witness_TruncatedAndExtendedFramesRejected :
    State.reset.fatal = false ∧ State.reset.rxb.wf = true ∧ (msg [0xAA] 0x20).Valid ∧
    7 < (msg [0xAA] 0x20).frame.length ∧ 8 < (msg [0xAA] 0x20).frame.length :=
  ⟨rfl, rfl, ⟨rfl, by decide +kernel, Laws.tailZero_of_filledStore (bs := [0xAA]) rfl (by decide)⟩,
    by decide +kernel, by decide +kernel⟩

end Sys2Proof.Tests
end

/-! ### ENCODE, loop back, DECODE: the pieces of the round trip -/

namespace Sys2Proof.Proofs

open Sys2Proof.Machine Sys2Proof.Laws

/-- A run whose first step answers goes on from the state it answers. -/
theorem run_succ {M : Host.Core} {s s' : M.State} (h : M.step s = .next s') (k : Nat) :
    M.run (k + 1) s = M.run k s' := by
  rw [Host.Core.run, h]

/-- Where the host presents what decodes to `i`, the step is `exec i` with that move taken off (R30, R63). -/
theorem step_present {s : State} {p : Presented} {rest : List HostMove} {i : Instr}
    (hh : s.host = .present p :: rest) (hd : decode p = .ok i) : step s = exec i { s with host := rest } := by
  simp only [step, State.fetch, hh, hd]

/-- Where the host's next move is the loop-back, the step places TXB[0..TXLEN) in RXB as received
bytes, with that move taken off (R89). -/
theorem step_loopBack {s : State} {rest : List HostMove} (hh : s.host = .loopBack :: rest) :
    step s = .next (State.placeReceived { s with host := rest } s.txFrame) := by
  simp only [step, State.fetch, hh, State.loopBack, State.txFrame]

/-- ENCODE with FATAL = 0 leaves in TXB[0..TXLEN) the frame of M (R131, R134); M, FATAL, RXB and the host's moves
stay. -/
theorem exec_encode_frame {s : State} (hf : s.fatal = false) (hw : s.txb.wf = true) :
    ∃ t, exec .encode s = .next t ∧ t.txFrame = s.m.frame ∧ t.m = s.m ∧ t.fatal = false ∧ t.rxb = s.rxb ∧
      t.host = s.host := by
  refine ⟨_, (execEncode_eq s).trans (accepting_of_ready hf _), ?_, rfl, hf, rfl, rfl⟩
  simp only [State.txFrame, complete_txb, complete_txLen, toNat_wireSize]
  rw [← length_frame]
  exact load_store hw 0 s.m.frame

/-- The frame of a valid Message, at the start of a buffer, passes every check and gives the Message back, for
either threshold of step 1 that R7 allows and a frame not shorter than it (R150). -/
theorem validateFrame_store_frame {minLen : Nat} {mem : Memory} {m : Message} (hw : mem.wf = true) (hv : m.Valid)
    (hmin : minLen ≤ m.wireSize) : validateFrame minLen (mem.store 0 m.frame) m.wireSize = .ok m := by
  obtain ⟨hhdr, hck, htail⟩ := hv
  have hm : receivedMessage (mem.store 0 m.frame) = m := receivedMessage_store_frame hw htail
  have h0 : (mem.store 0 m.frame).read 0 = 0xAA#8 := (congrArg Message.hdr hm).trans hhdr
  have h1 : (mem.store 0 m.frame).read 1 = m.len := congrArg Message.len hm
  rw [validateFrame_eq, hm, h0, h1, if_neg (by omega), if_neg (by simp), if_neg (by simp [wireSize_eq]),
    if_neg (by simp [hck])]

/-- DECODE of the received frame of a valid Message completes with that Message in M (R147, R155). -/
theorem exec_decode_received_frame {s : State} {m : Message} (hf : s.fatal = false) (hw : s.rxb.wf = true)
    (hv : m.Valid) :
    exec .decode (s.placeReceived m.frame) = .next (State.complete { s.placeReceived m.frame with m := m }) := by
  refine execDecode_ok (s := s.placeReceived m.frame) hf ?_
  have hmin : Config.minFrameLen ≤ m.wireSize := by
    rw [wireSize_eq]
    exact Nat.le_add_right 8 _
  simpa using validateFrame_store_frame hw hv hmin

/-- Settles O42: the three steps one after another, the frame ENCODE leaves in TXB being what the loop-back places
in RXB and DECODE validates. -/
theorem encodeThenDecodeRoundTrip : Obligations.EncodeThenDecodeRoundTrip := by
  intro s rest hf hv htx hrx hh
  obtain ⟨t, ht, htf, -, htfatal, htrx, hthost⟩ :=
    exec_encode_frame (s := { s with host := .loopBack :: .present (encode .decode) :: rest }) hf htx
  have encodes : step s = .next t := (step_present hh rfl).trans ht
  have loops : step t =
      .next (State.placeReceived { t with host := .present (encode .decode) :: rest } s.m.frame) := by
    rw [step_loopBack hthost, htf]
  have decodes := exec_decode_received_frame (s := { t with host := rest }) htfatal (by rw [htrx]; exact hrx) hv
  have runs :=
    calc core.run 3 s
      _ = core.run 2 t := run_succ (M := core) encodes 2
      _ = core.run 1 (State.placeReceived { t with host := .present (encode .decode) :: rest } s.m.frame) :=
        run_succ (M := core) loops 1
      _ = core.run 0 _ := run_succ (M := core) ((step_present rfl rfl).trans decodes) 0
  exact ⟨_, runs, rfl, rfl, htfatal, rfl⟩

end Sys2Proof.Proofs

/-! ### What the host's moves and FRAME do to the state -/

namespace Sys2Proof.Proofs

open Sys2Proof.Machine Sys2Proof.Laws

/-- Bytes that decode are the bytes of a frame: a wire presentation stands for the FRAME row alone (R71). -/
theorem decodeFrame_ok {bs : List Byte} {i : Instr} (h : decodeFrame bs = .ok i) :
    ∃ f : WireFrame, i = .frame f ∧ f.bytes = bs := by
  unfold decodeFrame at h
  split at h
  · next hdr l dev grp log drv fn b bs =>
    have last : (b :: bs).dropLast ++ [(b :: bs).getLastD 0] = b :: bs := by
      rw [List.getLastD_cons, ← List.getLast_eq_getLastD (List.cons_ne_nil b bs)]
      exact List.dropLast_append_getLast _
    dsimp only at h
    split at h
    · cases h
    · split at h
      · cases h
      · split at h
        · cases h
        · cases h
          exact ⟨_, rfl, congrArg ([hdr, l, dev, grp, log, drv, fn] ++ ·) last⟩
  · cases h

/-- Received bytes are placed in RXB, whether they are a legal frame or not (R33). -/
theorem step_wire {s : State} {bs : List Byte} {rest : List HostMove} (hh : s.host = .present (.wire bs) :: rest) :
    step s = .next (State.placeReceived { s with host := rest } bs) := by
  cases hd : decode (.wire bs) with
  | ok i =>
    obtain ⟨f, rfl, rfl⟩ := decodeFrame_ok hd
    exact step_present hh hd
  | error e => simp only [step, State.fetch, hh, hd, State.presentOther]

/-- The argument, or its absence, is placed as the host's move says (R32). -/
theorem step_argument {s : State} {a : Option (List Byte)} {rest : List HostMove} (hh : s.host = .argument a :: rest) :
    step s = .next (State.placeArgument { s with host := rest } a) := by
  simp only [step, State.fetch, hh]

/-- What the host places from offset 0 is what the buffer holds there, and nothing above it changes. -/
theorem store_zero_spec {mem : Memory} (hw : mem.wf = true) (bs : List Byte) :
    (mem.store 0 bs).load 0 bs.length = bs ∧ ∀ a, bs.length ≤ a → (mem.store 0 bs).read a = mem.read a :=
  ⟨load_store hw 0 bs, fun _ ha => read_store_outside hw 0 bs (.inr (by omega))⟩

@[simp] theorem length_txFrame (s : State) : s.txFrame.length = s.txLen.toNat := length_load ..

/-- Settles O6: each move of the host is a store from offset 0, and the loop-back stores what TXB[0..TXLEN) reads. -/
theorem hostMovesPlaceBytes : Obligations.HostMovesPlaceBytes := by
  intro s rest bs hrx harg
  refine ⟨fun hh => ⟨_, step_wire hh, store_zero_spec hrx bs⟩, fun hh => ⟨_, step_argument hh, store_zero_spec harg bs⟩,
    fun hh => step_argument hh, fun hh => ⟨s.rxb.store 0 s.txFrame, ?_, fun a ha => ?_, fun a ha => ?_⟩⟩
  · rw [step_loopBack hh, ← length_txFrame]
    rfl
  · rw [read_store hrx, if_pos (by simpa using ha), State.txFrame, getD_load, if_pos (by simpa using ha)]
    simp
  · exact read_store_outside hrx 0 _ (.inr (by simpa using ha))

/-- Settles O4: the move is taken off and its instruction is run. -/
theorem stepRunsDecodedInstruction : Obligations.StepRunsDecodedInstruction :=
  fun _ _ _ _ hh hd => step_present hh hd

end Sys2Proof.Proofs

/-! ### A frame handed over by the transport -/

namespace Sys2Proof.Proofs

open Sys2Proof.Machine Sys2Proof.Laws

/-- The Message a wire frame carries: its nine fields, the store zero above the payload. -/
def carriedMessage (f : WireFrame) : Message where
  hdr := f.header
  len := f.dataLen
  dev := f.deviceAddr
  grp := f.deviceGroup
  log := f.logicGroup
  drv := f.driverAddr
  fn  := f.functionCode
  pay := filledStore f.payload
  ck  := f.checksum

/-- The constraints of R71, taken apart. -/
theorem wellFormed_frame_iff (f : WireFrame) :
    (Instr.frame f).wellFormed = true ↔
      f.header = 0xAA#8 ∧ f.payload.length = f.dataLen.toNat ∧ f.checksum = f.sum := by
  simp [Instr.wellFormed, WireFrame.headerOk, WireFrame.lengthOk, WireFrame.checksumOk, Config.headerConst, and_assoc]

theorem carriedMessage_payAt (f : WireFrame) {i : Nat} (hi : i < 255) :
    (carriedMessage f).payAt i = f.payload.getD i 0 :=
  (payAt_eq _ hi).trans (getElem_filledStore f.payload i hi)

theorem carriedMessage_payload {f : WireFrame} (hl : f.payload.length = f.dataLen.toNat) :
    (carriedMessage f).payload = f.payload := by
  refine List.ext_getElem ((length_payload _).trans hl.symm) fun i hi hi' => ?_
  have := f.dataLen.isLt
  rw [getElem_payload, carriedMessage_payAt f (by omega), List.getD_eq_getElem _ _ hi']

/-- The frame of the Message carried is the frame itself (R71, R131). -/
theorem carriedMessage_frame {f : WireFrame} (hl : f.payload.length = f.dataLen.toNat) :
    (carriedMessage f).frame = f.bytes := by
  rw [Message.frame, carriedMessage_payload hl]
  rfl

/-- A legal frame carries a valid Message (R27, R71). -/
theorem carriedMessage_valid {f : WireFrame} (hw : (Instr.frame f).wellFormed = true) : (carriedMessage f).Valid := by
  obtain ⟨hhdr, hl, hck⟩ := (wellFormed_frame_iff f).1 hw
  refine ⟨hhdr, ?_, tailZero_of_filledStore (bs := f.payload) rfl hl.le⟩
  rw [Message.sum, carriedMessage_payload hl]
  exact hck

/-- FRAME hands over the frame of the Message it carries. -/
theorem exec_frame {f : WireFrame} (hl : f.payload.length = f.dataLen.toNat) (s : State) :
    exec (.frame f) s = .next (s.placeReceived (carriedMessage f).frame) := by
  rw [carriedMessage_frame hl]
  rfl

/-- Settles O7: RXB reads as the frame of the carried Message at every offset of R71. -/
theorem frameDelivery : Obligations.FrameDelivery := by
  intro s f hw hrx
  obtain ⟨-, hl, -⟩ := (wellFormed_frame_iff f).1 hw
  have hread := read_store_frame hrx (carriedMessage f)
  have inside : ∀ i, i < 8 + f.dataLen.toNat →
      (s.rxb.store 0 (carriedMessage f).frame).read i = (carriedMessage f).frame.getD i 0 :=
    fun i hi => (hread i).trans (if_pos hi)
  obtain ⟨h0, h1, h2, h3, h4, h5, h6⟩ := getD_frame_fixed (carriedMessage f)
  refine ⟨s.rxb.store 0 (carriedMessage f).frame, ?_, (inside 0 (by omega)).trans h0, (inside 1 (by omega)).trans h1,
    (inside 2 (by omega)).trans h2, (inside 3 (by omega)).trans h3, (inside 4 (by omega)).trans h4,
    (inside 5 (by omega)).trans h5, (inside 6 (by omega)).trans h6, fun i hi => ?_,
    (inside _ (by omega)).trans (getD_frame_checksum _), fun a ha => (hread a).trans (if_neg (Nat.not_lt.2 ha))⟩
  · have hlen : (carriedMessage f).frame.length = 8 + f.dataLen.toNat := (length_frame _).trans (wireSize_eq _)
    rw [exec_frame hl, ← hlen]
    rfl
  · have := f.dataLen.isLt
    rw [inside _ (by omega), getD_frame_payload _ hi, carriedMessage_payAt f (by omega)]

/-- Settles O8: the carried Message is valid, and DECODE of the frame of a valid Message gives that Message. -/
theorem deliveredFrameDecodes : Obligations.DeliveredFrameDecodes := by
  intro s t f hw hf hrx ht
  obtain ⟨-, hl, -⟩ := (wellFormed_frame_iff f).1 hw
  have hv := carriedMessage_valid hw
  obtain rfl := Host.Outcome.next.inj ((exec_frame hl s).symm.trans ht)
  exact ⟨carriedMessage f, exec_decode_received_frame hf hrx hv, rfl, rfl, rfl, rfl, rfl, rfl, rfl,
    carriedMessage_payload hl, rfl, hv⟩

end Sys2Proof.Proofs

/-! ### What a command reads and writes -/

namespace Sys2Proof.Proofs

open Sys2Proof.Machine Sys2Proof.Laws

/-- Every command asks for FATAL = 0 before anything else (R108). -/
theorem exec_eq_accepting {i : Instr} (hc : isCommand i = true) (s : State) : ∃ r, exec i s = s.accepting r := by
  cases i with
  | frame => cases hc
  | _ => exact ⟨_, rfl⟩

/-- Settles O36: no command is accepted while FATAL = 1. -/
theorem fatalRefusesEveryCommand : Obligations.FatalRefusesEveryCommand := by
  intro i s hc hf
  obtain ⟨r, hr⟩ := exec_eq_accepting hc s
  rw [hr, accepting_of_fatal hf]

/-- Taking a recoverable error writes STATUS and the event alone (R172). -/
theorem takeError_of_recoverable {k : ErrorKind} (hk : k.isFatal = false) (s : State) :
    s.takeError k =
      { s with status := k.code, event := if k.rejectsFrame then some { kind := k, bytes := s.rxBytes } else none } := by
  simp [State.takeError, hk]

/-- The frame of a command (R45): M, STATUS and the event may change, RES with CHECKSUM and WIRESIZE alone, TXB and
TXLEN with ENCODE alone, and nothing else. -/
theorem commandEnds_frame {i : Instr} {s t : State} (h : CommandEnds s i t) :
    ∃ m st r txb n e,
      t = { s with m := m, status := st, res := r, txb := txb, txLen := n, event := e } ∧
        (i ≠ .checksum → i ≠ .wireSize → r = s.res) ∧ (i ≠ .encode → txb = s.txb ∧ n = s.txLen) := by
  cases h with
  | checksum => exact ⟨_, _, _, _, _, _, rfl, fun hi _ => absurd rfl hi, fun _ => ⟨rfl, rfl⟩⟩
  | wireSize => exact ⟨_, _, _, _, _, _, rfl, fun _ hi => absurd rfl hi, fun _ => ⟨rfl, rfl⟩⟩
  | encode => exact ⟨_, _, _, _, _, _, rfl, fun _ _ => rfl, fun hi => absurd rfl hi⟩
  | rejected k invalid =>
    obtain ⟨-, hk, -⟩ := validateFrame_error_kind invalid
    rw [takeError_of_recoverable hk]
    exact ⟨_, _, _, _, _, _, rfl, fun _ _ => rfl, fun _ => ⟨rfl, rfl⟩⟩
  | malformedHex =>
    rw [takeError_of_recoverable rfl]
    exact ⟨_, _, _, _, _, _, rfl, fun _ _ => rfl, fun _ => ⟨rfl, rfl⟩⟩
  | _ => exact ⟨_, _, _, _, _, _, rfl, fun _ _ => rfl, fun _ => ⟨rfl, rfl⟩⟩

/-- The payload store from index `n` on is not overwritten (R105). -/
theorem payAt_overwrittenStore_above (m : Message) {n i : Nat} (bs : List Byte) (hi : n ≤ i) :
    Message.payAt { m with pay := overwrittenStore m.pay n bs } i = m.payAt i := by
  by_cases h : i < 255
  · rw [payAt_eq _ h, payAt_eq _ h]
    exact (getElem_overwrittenStore m.pay n bs i h).trans (if_neg hi.not_gt)
  · rw [payAt_outside _ (by omega), payAt_outside _ (by omega)]

/-- SET_PAYLOAD_HEX, however it ends, keeps the header fields, LEN and the store from LEN on (R105). -/
theorem commandEnds_setPayloadHex_message {s t : State} (h : CommandEnds s .setPayloadHex t) :
    t.m = { s.m with pay := t.m.pay, ck := t.m.ck } ∧ ∀ j, s.m.len.toNat ≤ j → t.m.payAt j = s.m.payAt j := by
  cases h with
  | setPayloadHex bs => exact ⟨rfl, fun _ hj => payAt_overwrittenStore_above s.m bs hj⟩
  | malformedHex => exact ⟨rfl, fun _ _ => rfl⟩

/-- Settles O31: the frame of a command, and what each command does to M. -/
theorem accessMatrix : Obligations.AccessMatrix := by
  intro i s t hc h
  obtain ⟨-, hend⟩ := exec_cases hc h
  have untouched : i = .encode ∨ i = .wireSize → t.m = s.m := by
    rintro (rfl | rfl)
    · cases hend; rfl
    · cases hend; rfl
  have sealedOnly : i = .checksum → t.m = { s.m with ck := t.m.ck } := by
    rintro rfl
    cases hend; rfl
  have text : i = .setPayloadText → t.m = { s.m with pay := t.m.pay, len := t.m.len, ck := t.m.ck } := by
    rintro rfl
    cases hend; rfl
  have hex : i = .setPayloadHex →
      t.m = { s.m with pay := t.m.pay, ck := t.m.ck } ∧ ∀ j, s.m.len.toNat ≤ j → t.m.payAt j = s.m.payAt j := by
    rintro rfl
    exact commandEnds_setPayloadHex_message hend
  obtain ⟨m, st, r, txb, n, e, rfl, hres, htx⟩ := commandEnds_frame hend
  exact ⟨hres, fun hi => ⟨(htx hi).2, fun a => congrArg (Memory.read · a) (htx hi).1⟩, fun _ => rfl, rfl, fun _ => rfl,
    rfl, rfl, rfl, rfl, untouched, sealedOnly, text, hex⟩

/-- The converse of `exec_cases`: with FATAL = 0 a command ends as `CommandEnds` says. -/
theorem exec_of_commandEnds {i : Instr} {s t : State} (hf : s.fatal = false) (h : CommandEnds s i t) :
    exec i s = .next t := by
  cases h with
  | loadDefault => exact (execLoadDefault_eq s).trans (accepting_of_ready hf _)
  | setPayloadHex bs parsed => exact execSetPayloadHex_ok hf parsed
  | malformedHex malformed => exact execSetPayloadHex_malformed hf malformed
  | encode => exact (execEncode_eq s).trans (accepting_of_ready hf _)
  | decode valid => exact execDecode_ok hf valid
  | rejected k invalid => exact execDecode_rejected hf invalid
  | _ => exact accepting_of_ready hf _

/-- A command ends alike whatever STATUS, RES and the event were; the old RES stays where the command writes none. -/
theorem commandEnds_of_outputs {i : Instr} {s t : State} (h : CommandEnds s i t) (x : BitVec 3) (r : BitVec 9)
    (e : Option RejectEvent) :
    CommandEnds { s with status := x, res := r, event := e } i
      { t with res := if i = .checksum ∨ i = .wireSize then t.res else r } := by
  cases h with
  | loadDefault => exact .loadDefault
  | construct => exact .construct ..
  | setPayloadText => exact .setPayloadText
  | setPayloadHex bs parsed => exact .setPayloadHex bs parsed
  | malformedHex malformed => exact .malformedHex malformed
  | checksum => exact .checksum
  | wireSize => exact .wireSize
  | encode => exact .encode
  | decode valid => exact .decode valid
  | rejected k invalid => exact .rejected k invalid

/-- Settles O34: a command that ends so from `s` ends so from every other STATUS, RES and event. -/
theorem statusAndResultAreNeverRead : Obligations.StatusAndResultAreNeverRead := by
  intro i s t x r e hc h
  obtain ⟨hf, hend⟩ := exec_cases hc h
  exact exec_of_commandEnds hf (commandEnds_of_outputs hend x r e)

/-- A step of an instruction is the end of a command or a frame handed over. -/
theorem exec_next_cases {i : Instr} {s t : State} (h : exec i s = .next t) :
    (s.fatal = false ∧ CommandEnds s i t) ∨ ∃ f : WireFrame, i = .frame f ∧ t = s.placeReceived f.bytes := by
  cases i with
  | frame f => cases h; exact .inr ⟨f, rfl, rfl⟩
  | _ => exact .inl (exec_cases rfl h)

/-- No instruction changes FATAL (R134). -/
theorem exec_keeps_fatal {i : Instr} {s t : State} (h : exec i s = .next t) : t.fatal = s.fatal := by
  obtain ⟨-, hend⟩ | ⟨f, -, rfl⟩ := exec_next_cases h
  · obtain ⟨m, st, r, txb, n, e, rfl, -, -⟩ := commandEnds_frame hend
    rfl
  · rfl

/-- Settles O37: of all that a step can do, only the reset writes FATAL. -/
theorem onlyResetChangesFatal : Obligations.OnlyResetChangesFatal := by
  intro s t h hne
  obtain ⟨mv, rest, hh, hcases⟩ := step_cases h
  obtain ⟨p, i, -, -, hexec⟩ | ⟨bs, e, -, -, rfl⟩ | ⟨a, -, rfl⟩ | ⟨-, rfl⟩ | ⟨rfl, rfl⟩ := hcases
  · exact absurd (exec_keeps_fatal hexec) hne
  · exact absurd rfl hne
  · cases a with
    | none => exact absurd rfl hne
    | some bs => exact absurd rfl hne
  · exact absurd rfl hne
  · exact ⟨by simpa [State.reset] using hne, rest, hh⟩

end Sys2Proof.Proofs

/-! ### What DECODE reads -/

namespace Sys2Proof.Proofs

open Sys2Proof.Machine Sys2Proof.Laws

/-- The Message received depends on the bytes of its frame alone (R71). -/
theorem receivedMessage_congr {rx rx' : Memory}
    (h : ∀ a, a < 8 + (rx.read 1).toNat → rx'.read a = rx.read a) : receivedMessage rx' = receivedMessage rx := by
  have h1 : rx'.read 1 = rx.read 1 := h 1 (by omega)
  refine message_ext (h 0 (by omega)) h1 (h 2 (by omega)) (h 3 (by omega)) (h 4 (by omega)) (h 5 (by omega))
    (h 6 (by omega)) (pay_ext fun i _ => ?_) ?_
  · rw [receivedMessage_payAt, receivedMessage_payAt, h1]
    split
    · exact h _ (by omega)
    · rfl
  · show rx'.read (7 + (rx'.read 1).toNat) = rx.read (7 + (rx.read 1).toNat)
    rw [h1]
    exact h _ (by omega)

/-- The validation depends on RXLEN and on the bytes below min(RXLEN, 263) alone (R152). -/
theorem validateFrame_congr {rx rx' : Memory} {rxLen : Nat}
    (h : ∀ a, a < min rxLen 263 → rx'.read a = rx.read a) :
    validateFrame Config.minFrameLen rx' rxLen = validateFrame Config.minFrameLen rx rxLen := by
  rw [validateFrame_eq, validateFrame_eq, show Config.minFrameLen = 8 from rfl]
  by_cases hshort : rxLen < 8
  · rw [if_pos hshort, if_pos hshort]
  · rw [h 0 (by omega), h 1 (by omega)]
    by_cases hlen : rxLen = 8 + (rx.read 1).toNat
    · have := (rx.read 1).isLt
      rw [receivedMessage_congr fun a ha => h a (by omega)]
    · simp only [if_pos (show rxLen ≠ 8 + (rx.read 1).toNat from hlen)]

/-- No error has the code of success (R161). -/
theorem code_ne_zero (k : ErrorKind) : k.code ≠ 0 := by
  cases k <;> decide

/-- Above 263 no length byte agrees with RXLEN, so the header decides alone (R152). -/
theorem validateFrame_of_long {rx : Memory} {rxLen : Nat} (h : 263 < rxLen) :
    validateFrame Config.minFrameLen rx rxLen = .error (if rx.read 0 = 0xAA#8 then .lengthMismatch else .badHeader) := by
  have := (rx.read 1).isLt
  rw [validateFrame_eq, show Config.minFrameLen = 8 from rfl, if_neg (by omega)]
  by_cases h0 : rx.read 0 = 0xAA#8
  · rw [if_neg (not_not.2 h0), if_pos h0, if_pos (by omega)]
  · rw [if_pos h0, if_neg h0]

/-- Settles O35: the two validations are one, and STATUS and M follow from it. -/
theorem decodeReadsOnlyTheFrame : Obligations.DecodeReadsOnlyTheFrame := by
  intro s s' t t' hlen hreads ht ht'
  have hval : validateFrame Config.minFrameLen s'.rxb s'.rxLen = validateFrame Config.minFrameLen s.rxb s.rxLen := by
    rw [hlen]
    exact validateFrame_congr hreads
  obtain ⟨hf, -⟩ := execDecode_cases ht
  obtain ⟨hf', -⟩ := execDecode_cases ht'
  cases hv : validateFrame Config.minFrameLen s.rxb s.rxLen with
  | error k =>
    obtain rfl := Host.Outcome.next.inj ((execDecode_rejected hf hv).symm.trans ht)
    obtain rfl := Host.Outcome.next.inj ((execDecode_rejected hf' (hval.trans hv)).symm.trans ht')
    refine ⟨rfl, fun h0 => absurd h0 (code_ne_zero k), fun hlong => ?_⟩
    obtain rfl := Except.error.inj ((validateFrame_of_long hlong).symm.trans hv)
    rw [takeError_status]
    split <;> rfl
  | ok m =>
    obtain rfl := Host.Outcome.next.inj ((execDecode_ok hf hv).symm.trans ht)
    obtain rfl := Host.Outcome.next.inj ((execDecode_ok hf' (hval.trans hv)).symm.trans ht')
    exact ⟨rfl, fun _ => rfl, fun hlong => nomatch (validateFrame_of_long hlong).symm.trans hv⟩

end Sys2Proof.Proofs

/-! ### The invariant of every reachable state -/

namespace Sys2Proof.Proofs

open Sys2Proof.Machine Sys2Proof.Laws

/-- The default constant holds its checksum and a zero store (R44). -/
theorem default_sealed : (Message.default Config.deviceClass).ck = (Message.default Config.deviceClass).sum := by
  rw [← sealed_default]
  rfl

theorem default_tailZero : (Message.default Config.deviceClass).TailZero := by
  rw [← sealed_default]
  exact tailZero_of_filledStore (bs := []) rfl (Nat.zero_le _)

/-- Settles O40: field by field. -/
theorem invariantAtReset : Obligations.InvariantAtReset where
  checksum   := default_sealed
  tailZero   := default_tailZero
  running    := rfl
  reachable  := by decide
  result     := by decide
  txbForm    := rfl
  rxbForm    := rfl
  argForm    := rfl
  txbInside  := fun _ _ => rfl
  framed     := .inl rfl
  eventCause := fun _ he => by cases he

/-- Success is neither of the two unreachable errors (R161). -/
theorem statusOk_reachable : statusOk ≠ ErrorKind.outOfBounds.code ∧ statusOk ≠ ErrorKind.bufferOverflow.code := by
  decide

/-- Ending without an error keeps the invariant, where M and RES keep theirs: the end of every command but ENCODE. -/
theorem inv_complete {s : State} (h : s.Inv) {m : Message} {r : BitVec 9} (hck : m.ck = m.sum) (htail : m.TailZero)
    (hr : r.toNat ≤ 263) : (State.complete { s with m := m, res := r }).Inv :=
  { h with
    checksum   := hck
    tailZero   := htail
    reachable  := statusOk_reachable
    result     := hr
    eventCause := fun _ he => by cases he }

/-- ENCODE keeps the invariant: TXB[0..TXLEN) is now the frame of M, which fits the 263 bytes (R34, R133). -/
theorem inv_encode {s t : State} (h : s.Inv) (hend : CommandEnds s .encode t) : t.Inv := by
  obtain ⟨u, hu, hframe, -⟩ := exec_encode_frame h.running h.txbForm
  obtain rfl := Host.Outcome.next.inj ((exec_of_commandEnds h.running hend).symm.trans hu)
  cases hend
  exact
    { inv_complete h h.checksum h.tailZero h.result with
      txbForm   := wf_store h.txbForm 0 _
      txbInside := fun a ha => by
        have := wireSize_le s.m
        exact (read_store_outside h.txbForm 0 _ (.inr (by rw [length_frame]; omega))).trans (h.txbInside a ha)
      framed    := .inr ⟨s.m, h.checksum, toNat_wireSize s.m, hframe⟩ }

/-- Taking one of the reachable errors keeps the invariant: STATUS and the event agree (R172, R178). -/
theorem inv_takeError {s : State} (h : s.Inv) {k : ErrorKind} (hk : k.isFatal = false)
    (hcode : k.code ≠ ErrorKind.outOfBounds.code ∧ k.code ≠ ErrorKind.bufferOverflow.code) : (s.takeError k).Inv := by
  rw [takeError_of_recoverable hk]
  exact
    { h with
      reachable  := hcode
      eventCause := fun e he => by
        obtain ⟨hrej, rfl⟩ : k.rejectsFrame = true ∧ _ = e := by simpa using he
        exact ⟨hrej, rfl⟩ }

/-- The host's inputs and moves do not enter the invariant, but for the form of its buffers. -/
theorem inv_hostInputs {s : State} (h : s.Inv) {rxb arg : Memory} (hrx : rxb.wf = true) (harg : arg.wf = true)
    (n k : Nat) (p : Bool) (moves : List HostMove) :
    State.Inv { s with rxb := rxb, rxLen := n, arg := arg, argLen := k, argPresent := p, host := moves } :=
  { h with rxbForm := hrx, argForm := harg }

theorem inv_placeReceived {s : State} (h : s.Inv) (bs : List Byte) : (s.placeReceived bs).Inv :=
  inv_hostInputs h (wf_store h.rxbForm 0 bs) h.argForm ..

theorem inv_placeArgument {s : State} (h : s.Inv) (a : Option (List Byte)) : (s.placeArgument a).Inv := by
  cases a with
  | none => exact inv_hostInputs h h.rxbForm h.argForm ..
  | some bs => exact inv_hostInputs h h.rxbForm (wf_store h.argForm 0 bs) ..

/-- A reset block meets the invariant, whatever it was, if the host's buffers are in form (R190). -/
theorem inv_resetBlock {s : State} (h : s.Inv) : s.resetBlock.Inv :=
  inv_hostInputs (s := State.reset) invariantAtReset h.rxbForm h.argForm ..

/-- However a command ends, it keeps the invariant. -/
theorem inv_commandEnds {i : Instr} {s t : State} (h : s.Inv) (hend : CommandEnds s i t) : t.Inv := by
  cases hend with
  | loadDefault => exact inv_complete h default_sealed default_tailZero h.result
  | construct hdr lenIn =>
    refine inv_complete h rfl (tailZero_of_filledStore rfl ?_) h.result
    rw [seal_len, toNat_clampLength]
    unfold State.sourceBytes clampLength Config.maxPayload
    split
    · rw [length_load]; omega
    · exact Nat.zero_le _
  | setPayloadText =>
    refine inv_complete h rfl (tailZero_of_filledStore rfl ?_) h.result
    rw [length_load, seal_len, toNat_clampLength]
    exact le_rfl
  | setPayloadHex bs parsed =>
    obtain ⟨-, above⟩ := commandEnds_setPayloadHex_message (.setPayloadHex bs parsed)
    refine inv_complete h rfl (fun i hi => ?_) h.result
    rw [seal_len] at hi
    exact (above i hi).trans (h.tailZero i hi)
  | malformedHex => exact inv_takeError h rfl (by decide)
  | checksum =>
    refine inv_complete h rfl h.tailZero ?_
    have := s.m.sum.isLt
    rw [BitVec.toNat_setWidth, Nat.mod_eq_of_lt (by omega)]
    omega
  | wireSize =>
    refine inv_complete h h.checksum h.tailZero ?_
    rw [toNat_wireSize]
    exact wireSize_le s.m
  | encode => exact inv_encode h .encode
  | decode valid =>
    obtain ⟨-, -, -, -, hck⟩ := validateFrame_ok valid
    exact inv_complete h hck (tailZero_of_filledStore rfl (length_load ..).le) h.result
  | rejected k invalid =>
    obtain rfl | rfl | rfl | rfl := validateFrame_error invalid <;> exact inv_takeError h rfl (by decide)

/-- Settles O41: each thing a step can do keeps the invariant, the host's moves being no part of it. -/
theorem stepKeepsInvariant : Obligations.StepKeepsInvariant := by
  intro s t h hstep
  obtain ⟨mv, rest, -, hcases⟩ := step_cases hstep
  have hrest : State.Inv { s with host := rest } := inv_hostInputs h h.rxbForm h.argForm ..
  obtain ⟨p, i, -, -, hexec⟩ | ⟨bs, e, -, -, rfl⟩ | ⟨a, -, rfl⟩ | ⟨-, rfl⟩ | ⟨-, rfl⟩ := hcases
  · obtain ⟨-, hend⟩ | ⟨f, -, rfl⟩ := exec_next_cases hexec
    · exact inv_commandEnds hrest hend
    · exact inv_placeReceived hrest f.bytes
  · exact inv_placeReceived hrest bs
  · exact inv_placeArgument hrest a
  · exact inv_placeReceived hrest _
  · exact inv_resetBlock hrest

end Sys2Proof.Proofs

/-! ### No step faults -/

namespace Sys2Proof.Proofs

open Sys2Proof.Machine Sys2Proof.Laws

/-- From every state a command has an end: whatever the argument and the received bytes are, one of the ways of
`CommandEnds` is open, and none of them is a fault. -/
theorem exists_commandEnds {i : Instr} (hc : isCommand i = true) (s : State) : ∃ t, CommandEnds s i t := by
  cases i with
  | loadDefault => exact ⟨_, .loadDefault⟩
  | construct => exact ⟨_, .construct ..⟩
  | setPayloadText => exact ⟨_, .setPayloadText⟩
  | setPayloadHex =>
    cases hp : parseHex s.argBytes with
    | none => exact ⟨_, .malformedHex hp⟩
    | some bs => exact ⟨_, .setPayloadHex bs hp⟩
  | checksum => exact ⟨_, .checksum⟩
  | wireSize => exact ⟨_, .wireSize⟩
  | encode => exact ⟨_, .encode⟩
  | decode =>
    cases hv : validateFrame Config.minFrameLen s.rxb s.rxLen with
    | error k => exact ⟨_, .rejected k hv⟩
    | ok m =>
      obtain ⟨rfl, -⟩ := validateFrame_ok hv
      exact ⟨_, .decode hv⟩
  | frame => cases hc

/-- No instruction faults: a command is refused while FATAL = 1 and ends otherwise, and FRAME always answers. That
ENCODE's writes stay inside TXB is `execEncode_eq` (R57). -/
theorem exec_ne_fault (i : Instr) (s : State) (f : Fault) : exec i s ≠ .fault f := by
  cases hc : isCommand i with
  | true =>
    cases hf : s.fatal with
    | true => simp [fatalRefusesEveryCommand i s hc hf]
    | false =>
      obtain ⟨t, hend⟩ := exists_commandEnds hc s
      simp [exec_of_commandEnds hf hend]
  | false =>
    cases i with
    | frame => exact nofun
    | _ => cases hc

/-- What is no row of the opcode table is refused or received, and never faults. -/
theorem presentOther_ne_fault (s : State) (p : Presented) (f : Fault) : s.presentOther p ≠ .fault f := by
  cases p <;> exact nofun

/-- Settles O30: a step runs an instruction, receives bytes, refuses, or lets the host act, and none of these faults. -/
theorem noStepFaults : Obligations.NoStepFaults := by
  intro s f
  unfold step
  split
  · exact nofun
  · next p s' _ =>
    split
    · next i _ => exact exec_ne_fault i s' f
    · exact presentOther_ne_fault s' p f
  · exact nofun
  · exact nofun
  · exact nofun

end Sys2Proof.Proofs

/-! ### Issuing a command twice -/

namespace Sys2Proof.Proofs

open Sys2Proof.Machine Sys2Proof.Laws

/-- Storing a sequence twice at one place leaves what storing it once left. -/
theorem store_store_self {mem : Memory} (hw : mem.wf = true) (off : Nat) (bs : List Byte) :
    (mem.store off bs).store off bs = mem.store off bs := by
  have hw' := wf_store hw off bs
  refine eq_of_reads (wf_store hw' off bs) hw' fun a => ?_
  rw [read_store hw', read_store hw]
  split <;> rfl

/-- Overwriting a payload store twice with one sequence leaves what overwriting it once left (R105). -/
theorem overwrittenStore_overwrittenStore_self (pay : Vector Byte 255) (n : Nat) (bs : List Byte) :
    overwrittenStore (overwrittenStore pay n bs) n bs = overwrittenStore pay n bs :=
  Vector.ext fun i hi => by
    simp only [getElem_overwrittenStore]
    split <;> rfl

/-- Taking one error twice leaves what taking it once left (R172). -/
theorem takeError_takeError_self (s : State) (k : ErrorKind) : (s.takeError k).takeError k = s.takeError k := by
  cases hk : k.isFatal <;> simp [State.takeError, State.rxBytes, hk]

/-- A seal before the payload is replaced and sealed again is lost: the cached checksum is no part of the sum (R100). -/
theorem seal_seal_pay (m : Message) (pay : Vector Byte 255) :
    Message.seal { m.seal with pay := pay } = Message.seal { m with pay := pay } := rfl

/-- The Message that SET_PAYLOAD_HEX leaves is left as it is by the same overwriting and sealing (R105). -/
theorem seal_overwrittenStore_fixed {m m' : Message} {bs : List Byte}
    (h : m' = Message.seal { m with pay := overwrittenStore m.pay m.len.toNat bs }) :
    Message.seal { m' with pay := overwrittenStore m'.pay m'.len.toNat bs } = m' := by
  have hpay : overwrittenStore m'.pay m'.len.toNat bs = overwrittenStore m.pay m.len.toNat bs := by
    rw [h, seal_pay, seal_len]
    exact overwrittenStore_overwrittenStore_self ..
  rw [hpay, h]
  exact seal_seal_pay { m with pay := overwrittenStore m.pay m.len.toNat bs } _

/-- After a completed command, SET_PAYLOAD_HEX ends where it began if the overwriting leaves M as it is. -/
theorem commandEnds_setPayloadHex_self {s : State} {m : Message} {bs : List Byte}
    (parsed : parseHex s.argBytes = some bs)
    (fixed : Message.seal { m with pay := overwrittenStore m.pay m.len.toNat bs } = m) :
    CommandEnds (State.complete { s with m := m }) .setPayloadHex (State.complete { s with m := m }) := by
  have again := CommandEnds.setPayloadHex (s := State.complete { s with m := m }) bs parsed
  rwa [complete_m, fixed] at again

/-- A command that ended in a state ends in that same state when it is issued there again: what it reads
it has left alone, but for M's payload and TXB, which the second issue overwrites with the same bytes (R55). -/
theorem commandEnds_again {i : Instr} {s t : State} (hw : s.txb.wf = true) (h : CommandEnds s i t) :
    CommandEnds t i t := by
  cases h with
  | loadDefault => exact .loadDefault
  | construct => exact .construct ..
  | setPayloadText => exact .setPayloadText
  | setPayloadHex bs parsed => exact commandEnds_setPayloadHex_self parsed (seal_overwrittenStore_fixed rfl)
  | malformedHex malformed =>
    have again := CommandEnds.malformedHex (s := s.takeError .invalidHexToken) malformed
    rwa [takeError_takeError_self] at again
  | checksum => exact .checksum
  | wireSize => exact .wireSize
  | encode =>
    have again := CommandEnds.encode (s := State.complete
      { s with txb := s.txb.store 0 s.m.frame, txLen := BitVec.ofNat 9 s.m.wireSize })
    simp only [complete_m, complete_txb, store_store_self hw] at again
    exact again
  | decode valid => exact .decode valid
  | rejected k invalid =>
    have again := CommandEnds.rejected (s := s.takeError k) k invalid
    rwa [takeError_takeError_self] at again

/-- Settles O33: the second issue is accepted, FATAL being still 0, and ends where the first did. -/
theorem commandsAreIdempotent : Obligations.CommandsAreIdempotent := by
  intro i s t hc hw h
  obtain ⟨hf, hend⟩ := exec_cases hc h
  exact exec_of_commandEnds ((exec_keeps_fatal h).trans hf) (commandEnds_again hw hend)

end Sys2Proof.Proofs

/-! ### Decoding and encoding a frame -/

namespace Sys2Proof.Proofs

open Sys2Proof.Machine Sys2Proof.Laws

/-- The reader of frames finds the nine fields of a frame in its bytes, and what is left is the checks of R71. -/
theorem decodeFrame_bytes (f : WireFrame) :
    decodeFrame f.bytes =
      if !f.headerOk then .error .frameHeader
      else if !f.lengthOk then .error .frameLength
      else if !f.checksumOk then .error .frameChecksum
      else .ok (.frame f) := by
  obtain ⟨header, dataLen, deviceAddr, deviceGroup, logicGroup, driverAddr, functionCode, payload, checksum⟩ := f
  obtain ⟨b, bs, tail⟩ : ∃ b bs, payload ++ [checksum] = b :: bs := List.exists_cons_of_ne_nil (by simp)
  have front : (b :: bs).dropLast = payload := by rw [← tail, List.dropLast_concat]
  have last : (b :: bs).getLastD 0 = checksum := by rw [← tail, List.getLastD_concat]
  simp only [WireFrame.bytes, List.cons_append, List.nil_append, tail, decodeFrame, front, last]

/-- The bytes of a frame decode to that frame exactly when it is well formed (R71). -/
theorem decodeFrame_bytes_iff (f : WireFrame) :
    decodeFrame f.bytes = .ok (.frame f) ↔ (Instr.frame f).wellFormed = true := by
  rw [decodeFrame_bytes, Instr.wellFormed]
  cases f.headerOk with
  | false => simp
  | true =>
    cases f.lengthOk with
    | false => simp
    | true => cases f.checksumOk <;> simp

/-- Settles O1: a command's code and operand lines read back by evaluation, a frame by its constraints. -/
theorem decodeEncodeRoundTrip : Obligations.DecodeEncodeRoundTrip := by
  intro i hw
  cases i with
  | frame f => exact (decodeFrame_bytes_iff f).2 hw
  | _ => rfl

end Sys2Proof.Proofs

/-! ### The command codes -/

namespace Sys2Proof.Proofs

open Sys2Proof.Machine Sys2Proof.Laws

/-- The lines of a command with zero on those its row does not read: CONSTRUCT reads them all, no other command
reads any (R31, R81). -/
def linesRead (c : CommandLines) : CommandLines := if c.cmd = 0x2 then c else .ofCode c.cmd

@[simp] theorem linesRead_cmd (c : CommandLines) : (linesRead c).cmd = c.cmd := by
  unfold linesRead
  split <;> rfl

theorem linesRead_construct {c : CommandLines} (h : c.cmd = 0x2) : linesRead c = c := if_pos h

/-- A reserved code names no row of the opcode table (R82). -/
theorem decodeCommand_reserved {c : CommandLines} (h : c.cmd.toNat = 0 ∨ 9 ≤ c.cmd.toNat) :
    decodeCommand c = .error (.reservedCommand c.cmd) := by
  unfold decodeCommand
  split
  case h_9 => rfl
  all_goals omega

/-- Each of the codes 1 to 8 names a row (R80). -/
theorem decodeCommand_accepted {c : CommandLines} (h1 : 1 ≤ c.cmd.toNat) (h8 : c.cmd.toNat ≤ 8) :
    ∃ i, decodeCommand c = .ok i := by
  unfold decodeCommand
  interval_cases c.cmd.toNat <;> exact ⟨_, rfl⟩

/-- What a code names is a command, and its encoding is the code with the lines that were read (R80, R81). -/
theorem decodeCommand_ok {c : CommandLines} {i : Instr} (h : decodeCommand c = .ok i) :
    isCommand i = true ∧ encode i = .command (linesRead c) := by
  obtain ⟨cmd, hdr, lenIn, dev, grp, log, drv, fn, ckSeed⟩ := c
  unfold decodeCommand at h
  split at h
  case h_9 => cases h
  all_goals
    next code =>
    obtain ⟨-, rfl⟩ := BitVec.toNat_eq_nat.1 code
    cases h
    exact ⟨rfl, rfl⟩

/-- The operands of a command are unrestricted (R78, R81). -/
theorem wellFormed_of_isCommand {i : Instr} (hc : isCommand i = true) : i.wellFormed = true := by
  cases i with
  | frame => cases hc
  | _ => rfl

/-- Settles O2: bytes decode to a frame that meets R71, a code to a command with the lines it reads. -/
theorem decodedPresentationEncodesBack : Obligations.DecodedPresentationEncodesBack := by
  refine ⟨fun bs i h => ?_, fun c i h => ?_⟩
  · obtain ⟨f, rfl, rfl⟩ := decodeFrame_ok h
    exact ⟨(decodeFrame_bytes_iff f).1 h, rfl⟩
  · obtain ⟨hc, henc⟩ := decodeCommand_ok h
    exact ⟨wellFormed_of_isCommand hc, linesRead c, henc, linesRead_cmd c, linesRead_construct⟩

/-- A step with a reserved code presented is refused (R82). -/
theorem step_reserved {s : State} {c : CommandLines} {rest : List HostMove}
    (hh : s.host = .present (.command c) :: rest) (h : c.cmd.toNat = 0 ∨ 9 ≤ c.cmd.toNat) :
    step s = .refused (.reservedCommand c.cmd) := by
  have hd : decode (.command c) = .error (.reservedCommand c.cmd) := decodeCommand_reserved h
  simp only [step, State.fetch, hh, hd, State.presentOther]

/-- A step with one of the eight codes presented runs a command (R30, R80). -/
theorem step_accepted {s : State} {c : CommandLines} {rest : List HostMove}
    (hh : s.host = .present (.command c) :: rest) (h1 : 1 ≤ c.cmd.toNat) (h8 : c.cmd.toNat ≤ 8) :
    ∃ i, isCommand i = true ∧ step s = exec i { s with host := rest } := by
  obtain ⟨i, hd⟩ := decodeCommand_accepted h1 h8
  exact ⟨i, (decodeCommand_ok hd).1, step_present hh hd⟩

/-- Settles O5: a reserved code does not decode; one of the eight runs a command, which FATAL = 1 refuses and which
ends otherwise. -/
theorem commandCodesAcceptedOrRefused : Obligations.CommandCodesAcceptedOrRefused := by
  intro s c rest hh
  refine ⟨fun h => step_reserved hh (h.imp_left (congrArg BitVec.toNat)), fun h1 h8 hf => ?_, fun h1 h8 hf => ?_⟩
  · obtain ⟨i, hc, hstep⟩ := step_accepted hh h1 h8
    exact hstep.trans (fatalRefusesEveryCommand i _ hc hf)
  · obtain ⟨i, hc, hstep⟩ := step_accepted hh h1 h8
    obtain ⟨t, hend⟩ := exists_commandEnds hc { s with host := rest }
    exact ⟨t, hstep.trans (exec_of_commandEnds hf hend)⟩

/-- A word of the opcode table below 16 with a reserved code names no row (R82). -/
theorem decodeTableWord_reserved {w : Nat} (hw : w < 16) (h : w = 0 ∨ 9 ≤ w) : decodeTableWord 8 w = none := by
  have word : tableWord 8 w = .command (.ofCode (BitVec.ofNat 4 w)) := by
    rw [tableWord, Nat.mod_eq_of_lt (show w < 2 ^ 8 by omega), if_pos hw]
  have code : (BitVec.ofNat 4 w).toNat = w := Nat.mod_eq_of_lt hw
  have reserved : decodeCommand (.ofCode (BitVec.ofNat 4 w)) = .error (.reservedCommand (BitVec.ofNat 4 w)) :=
    decodeCommand_reserved (c := .ofCode (BitVec.ofNat 4 w)) (by rwa [CommandLines.ofCode, code])
  rw [decodeTableWord, word, decode, reserved]
  rfl

/-- Settles O3: the words of the rows decode by evaluation, the others are reserved codes. -/
theorem tableWordsNameTheirRows : Obligations.TableWordsNameTheirRows :=
  ⟨rfl, rfl, rfl, rfl, rfl, rfl, rfl, rfl, by decide, fun _ hw h => decodeTableWord_reserved hw h⟩

end Sys2Proof.Proofs

/-! ### The tokens of a text -/

namespace Sys2Proof.Proofs

open Sys2Proof.Machine Sys2Proof.Laws

/-- Whitespace is the space and the five codes from 0x09 to 0x0D (R84). -/
theorem isSpace_iff (b : Byte) : isSpace b = true ↔ b ∈ [0x20, 0x09, 0x0A, 0x0B, 0x0C, 0x0D] := by
  simp only [isSpace, Bool.or_eq_true, beq_iff_eq, Bool.and_eq_true, decide_eq_true_eq, List.mem_cons,
    List.not_mem_nil, or_false, ← BitVec.toNat_inj, BitVec.toNat_ofNat, BitVec.ofNat_eq_ofNat]
  omega

/-- Whitespace before the first token is skipped (R84). -/
theorem tokens_space_append {lead : List Byte} (hl : ∀ b ∈ lead, isSpace b = true) (text : List Byte) :
    tokens (lead ++ text) = tokens text := by
  induction lead with
  | nil => rfl
  | cons b lead ih =>
    obtain ⟨hb, hl⟩ := List.forall_mem_cons.1 hl
    exact (if_pos hb).trans (ih hl)

/-- Bytes that are not whitespace extend the token under way. -/
theorem tokensFrom_append {tok : List Byte} (ht : ∀ b ∈ tok, isSpace b = false) (cur text : List Byte) :
    tokensFrom cur (tok ++ text) = tokensFrom (cur ++ tok) text := by
  induction tok generalizing cur with
  | nil => rw [List.nil_append, List.append_nil]
  | cons b tok ih =>
    obtain ⟨hb, ht⟩ := List.forall_mem_cons.1 ht
    rw [List.cons_append, tokensFrom, if_neg (by simp [hb]), ih ht, List.append_assoc, List.singleton_append]

/-- A token ends where the text does. -/
theorem tokensFrom_nil {cur : List Byte} (hc : cur ≠ []) : tokensFrom cur [] = cur :: tokens [] := by
  rw [tokensFrom, if_neg (by simpa using hc)]
  rfl

/-- A token ends at whitespace. -/
theorem tokensFrom_space {cur : List Byte} (hc : cur ≠ []) {b : Byte} (hb : isSpace b = true) (text : List Byte) :
    tokensFrom cur (b :: text) = cur :: tokens (b :: text) := by
  rw [show tokens (b :: text) = tokens text from if_pos hb, tokensFrom, if_pos hb, if_neg (by simpa using hc)]
  rfl

/-- The token under way ends where its separator begins, or with the text. -/
theorem tokensFrom_joinTokens {cur sep : List Byte} {ps : List (List Byte × List Byte)} (hc : cur ≠ [])
    (hs : ∀ b ∈ sep, isSpace b = true) (hsep : ps ≠ [] → sep ≠ []) :
    tokensFrom cur (joinTokens sep ps) = cur :: tokens (joinTokens sep ps) := by
  cases sep with
  | nil =>
    obtain rfl : ps = [] := by_contra fun hne => hsep hne rfl
    exact tokensFrom_nil hc
  | cons b sep =>
    obtain ⟨hb, -⟩ := List.forall_mem_cons.1 hs
    have head : joinTokens (b :: sep) ps = b :: joinTokens sep ps := by cases ps <;> rfl
    rw [head]
    exact tokensFrom_space hc hb _

/-- The tokens of a text of separated tokens are those tokens (R84). -/
theorem tokens_joinTokens {lead : List Byte} {ps : List (List Byte × List Byte)}
    (hl : ∀ b ∈ lead, isSpace b = true) (hp : Separated ps) : tokens (joinTokens lead ps) = ps.map Prod.fst := by
  induction ps generalizing lead with
  | nil =>
    have := tokens_space_append hl []
    rwa [List.append_nil] at this
  | cons p ps ih =>
    obtain ⟨tok, sep⟩ := p
    obtain ⟨hne, htok, hs, hsep, hp⟩ := hp
    calc tokens (lead ++ tok ++ joinTokens sep ps)
      _ = tokens (tok ++ joinTokens sep ps) := by rw [List.append_assoc, tokens_space_append hl]
      _ = tokensFrom tok (joinTokens sep ps) := tokensFrom_append htok [] _
      _ = tok :: tokens (joinTokens sep ps) := tokensFrom_joinTokens hne hs hsep
      _ = tok :: ps.map Prod.fst := by rw [ih hs hp]

/-- Settles O18: the six bytes, and the tokens by induction on the separated text. -/
theorem tokensAreMaximalRuns : Obligations.TokensAreMaximalRuns :=
  ⟨isSpace_iff, fun _ _ => tokens_joinTokens⟩

end Sys2Proof.Proofs

/-! ### The value of a token -/

namespace Sys2Proof.Proofs

open Sys2Proof.Machine Sys2Proof.Laws

/-- The digit of a byte is the one of R85: the three ranges of codes do not meet. -/
theorem hexDigit?_eq_some_iff (b : Byte) (d : Nat) : hexDigit? b = some d ↔ IsHexDigit b d := by
  unfold hexDigit? IsHexDigit
  dsimp only
  split
  · rw [Option.some_inj]; omega
  · split
    · rw [Option.some_inj]; omega
    · split
      · rw [Option.some_inj]; omega
      · simp only [reduceCtorEq, false_iff]; omega

/-- A digit is below 16. -/
theorem isHexDigit_lt {b : Byte} {d : Nat} (h : IsHexDigit b d) : d < 16 := by
  unfold IsHexDigit at h
  omega

/-- The value of two bytes is that of their digits, which a byte holds without wrap (R85). -/
theorem hexPair?_eq_some_iff (a b v : Byte) :
    hexPair? a b = some v ↔ ∃ d e, IsHexDigit a d ∧ IsHexDigit b e ∧ v.toNat = 16 * d + e := by
  simp only [hexPair?, bind, Option.bind_eq_some_iff, pure, Option.some_inj, hexDigit?_eq_some_iff]
  refine exists_congr fun d => ?_
  rw [← exists_and_left]
  refine exists_congr fun e => and_congr_right fun hd => and_congr_right fun he => ?_
  have := isHexDigit_lt hd
  have := isHexDigit_lt he
  rw [← BitVec.toNat_inj, BitVec.toNat_ofNat, Nat.mod_eq_of_lt (by omega), eq_comm]

/-- A token with a value is two bytes, with `0x`, `0X` or nothing before them, that have this value (R85). -/
theorem tokenValue?_eq_some_iff (tok : List Byte) (v : Byte) :
    tokenValue? tok = some v ↔
      ∃ pre a b, (pre = [] ∨ pre = [0x30, 0x78] ∨ pre = [0x30, 0x58]) ∧ tok = pre ++ [a, b] ∧ hexPair? a b = some v := by
  constructor
  · intro h
    unfold tokenValue? at h
    split at h
    · next a b => exact ⟨[], a, b, .inl rfl, rfl, h⟩
    · next z x a b =>
      split at h
      · next hpre =>
        obtain ⟨rfl, rfl | rfl⟩ := hpre
        · exact ⟨[0x30, 0x78], a, b, .inr (.inl rfl), rfl, h⟩
        · exact ⟨[0x30, 0x58], a, b, .inr (.inr rfl), rfl, h⟩
      · cases h
    · cases h
  · rintro ⟨pre, a, b, rfl | rfl | rfl, rfl, h⟩
    · exact h
    · exact h
    · exact h

/-- Settles O19: the shape of the token, then the value of its two digits. -/
theorem tokenGrammar : Obligations.TokenGrammar := by
  intro tok v
  simp only [tokenValue?_eq_some_iff, hexPair?_eq_some_iff, exists_and_left]

/-- Tokens have values exactly when each has one, in order (R86). -/
theorem tokenValues?_eq_some_iff (ts : List (List Byte)) (vs : List Byte) :
    tokenValues? ts = some vs ↔ ts.map tokenValue? = vs.map some := by
  induction ts generalizing vs with
  | nil => cases vs <;> simp [tokenValues?]
  | cons t ts ih =>
    simp only [tokenValues?, bind, Option.bind_eq_some_iff, pure, Option.some_inj, ih]
    cases vs with
    | nil => simp
    | cons v vs => simp

/-- Tokens have no values exactly when one of them is malformed (R86, R104). -/
theorem tokenValues?_eq_none_iff (ts : List (List Byte)) :
    tokenValues? ts = none ↔ ∃ tok ∈ ts, tokenValue? tok = none := by
  induction ts with
  | nil => simp [tokenValues?]
  | cons t ts ih =>
    rw [List.exists_mem_cons_iff, ← ih, tokenValues?]
    cases tokenValue? t with
    | none => simp
    | some v => cases tokenValues? ts <;> simp

/-- Settles O20: both directions for the tokens of the text. -/
theorem parseHexIsAllOrNothing : Obligations.ParseHexIsAllOrNothing :=
  fun text vs => ⟨tokenValues?_eq_some_iff (tokens text) vs, tokenValues?_eq_none_iff (tokens text)⟩

end Sys2Proof.Proofs

/-! ### The checksum of a Message -/

namespace Sys2Proof.Proofs

open Sys2Proof.Machine Sys2Proof.Laws

/-- The bytes that `Sum` adds up have the exact sum of R100. -/
theorem byteSum_eq_exactSum (m : Message) :
    byteSum ([m.len, m.dev, m.grp, m.log, m.drv, m.fn] ++ m.payload) = m.exactSum := by
  simp only [byteSum_append, byteSum_cons, byteSum_nil, byteSum_payload, Message.exactSum]
  omega

/-- `Sum(m)` is the exact sum modulo 256 (R100). -/
theorem toNat_sum (m : Message) : m.sum.toNat = m.exactSum % 256 := by
  rw [Message.sum, byteSum_eq_exactSum, BitVec.toNat_ofNat]

/-- The payload adds at most 255 for each of its bytes. -/
theorem sum_payAt_le (m : Message) : ∑ i ∈ Finset.range m.len.toNat, (m.payAt i).toNat ≤ m.len.toNat * 255 := by
  have := Finset.sum_le_card_nsmul (Finset.range m.len.toNat) (fun i => (m.payAt i).toNat) 255
    fun i _ => Nat.le_of_lt_succ (m.payAt i).isLt
  rwa [Finset.card_range] at this

/-- The exact sum is at most (6 + 255) × 255 (R100, R110). -/
theorem exactSum_le (m : Message) : m.exactSum ≤ 66555 := by
  have := sum_payAt_le m
  unfold Message.exactSum
  omega

/-- The frame without its first and last byte is what `Sum` adds up (R74). -/
theorem dropLast_drop_one_frame (m : Message) :
    (m.frame.drop 1).dropLast = [m.len, m.dev, m.grp, m.log, m.drv, m.fn] ++ m.payload :=
  List.dropLast_concat (l₁ := [m.len, m.dev, m.grp, m.log, m.drv, m.fn] ++ m.payload)

/-- Settles O9: the sum and its bound, and the frame without its ends is what is added up. -/
theorem checksumIsSumModulo256 : Obligations.ChecksumIsSumModulo256 := by
  intro m
  refine ⟨toNat_sum m, exactSum_le m, ?_⟩
  rw [dropLast_drop_one_frame, byteSum_eq_exactSum, toNat_sum]

/-- The low byte of an accumulator that wraps at any width from 8 bits on is what it would be without a wrap: the low
byte of a sum is the sum of the low bytes (R110). -/
theorem setWidth_foldl_add {w : Nat} (hw : 8 ≤ w) (bs : List Byte) (acc : BitVec w) :
    (bs.foldl (fun acc b => acc + b.setWidth w) acc).setWidth 8 = acc.setWidth 8 + BitVec.ofNat 8 (byteSum bs) := by
  induction bs generalizing acc with
  | nil => simp
  | cons b bs ih =>
    rw [List.foldl_cons, ih, BitVec.setWidth_add _ _ hw, BitVec.setWidth_setWidth_of_le _ hw, BitVec.setWidth_eq,
      byteSum_cons, BitVec.ofNat_add, BitVec.ofNat_toNat, BitVec.setWidth_eq, BitVec.add_assoc]

/-- Settles O10: the accumulator starts at 0, and its low byte is the sum modulo 256. -/
theorem accumulatorWidthIsUnobservable : Obligations.AccumulatorWidthIsUnobservable := by
  intro m w hw
  rw [setWidth_foldl_add hw, Message.sum]
  simp

/-- Bytes of value 0 add nothing. -/
theorem byteSum_filter_ne_zero (bs : List Byte) : byteSum (bs.filter (· ≠ 0)) = byteSum bs := by
  induction bs with
  | nil => rfl
  | cons b bs ih =>
    by_cases hb : b = 0
    · rw [List.filter_cons_of_neg (by simpa using hb), ih, byteSum_cons, hb]
      simp
    · rw [List.filter_cons_of_pos (by simpa using hb), byteSum_cons, ih, byteSum_cons]

/-- Settles O11: the payload without its zero bytes has the same sum. -/
theorem skippingZeroBytesChangesNothing : Obligations.SkippingZeroBytesChangesNothing := by
  intro m
  rw [Message.sum, byteSum_append, byteSum_append, byteSum_filter_ne_zero]

/-- A Message that holds its checksum holds the exact sum modulo 256 (I1 of R26). -/
theorem toNat_ck_of_sealed {m : Message} (h : m.ck = m.sum) : m.ck.toNat = m.exactSum % 256 := by
  rw [h, toNat_sum]

/-- A command that writes M and ends without an error leaves M with its checksum (R25, R111). -/
theorem commandEnds_sealed {i : Instr} {s t : State} (h : CommandEnds s i t) (hwire : i ≠ .wireSize)
    (henc : i ≠ .encode) (hok : i = .setPayloadHex ∨ i = .decode → t.status = 0) : t.m.ck = t.m.sum := by
  cases h with
  | loadDefault => exact default_sealed
  | construct => rfl
  | setPayloadText => rfl
  | setPayloadHex => rfl
  | malformedHex => exact absurd (hok (.inl rfl)) (code_ne_zero .invalidHexToken)
  | checksum => rfl
  | wireSize => exact absurd rfl hwire
  | encode => exact absurd rfl henc
  | decode valid =>
    obtain ⟨-, -, -, -, hck⟩ := validateFrame_ok valid
    exact hck
  | rejected k => exact absurd (hok (.inr rfl)) (code_ne_zero k)

/-- Settles O32: M holds its checksum after each of these ends. -/
theorem checksumRecomputed : Obligations.ChecksumRecomputed := by
  intro i s t hc hwire henc h hok
  obtain ⟨-, hend⟩ := exec_cases hc h
  exact toNat_ck_of_sealed (commandEnds_sealed hend hwire henc hok)

end Sys2Proof.Proofs

/-! ### The Message a command builds, and the numbers it answers with -/

namespace Sys2Proof.Proofs

open Sys2Proof.Machine Sys2Proof.Laws

/-- The bytes of a store filled with no more bytes than it has: those bytes, and zero after them. -/
theorem payAt_of_filledStore {m : Message} {bs : List Byte} (h : m.pay = filledStore bs) (hl : bs.length ≤ 255)
    (i : Nat) : m.payAt i = bs.getD i 0 := by
  by_cases hi : i < 255
  · rw [payAt_eq m hi]
    simp only [h, getElem_filledStore]
  · rw [payAt_outside m (by omega), List.getD_eq_default _ _ (by omega)]

theorem clampLength_eq (n : Nat) : clampLength n = min n 255 := rfl

theorem clampLength_le (n : Nat) : clampLength n ≤ 255 := Nat.min_le_right ..

/-- CONSTRUCT copies no more bytes than the clamped length (R77). -/
theorem length_sourceBytes_le (s : State) (len : Nat) : (s.sourceBytes len).length ≤ len := by
  unfold State.sourceBytes
  split
  · exact (length_load ..).trans_le (Nat.min_le_left ..)
  · exact Nat.zero_le _

/-- The bytes CONSTRUCT copies, and zero past them: none of an absent argument (R77). -/
theorem getD_sourceBytes (s : State) (len i : Nat) :
    (s.sourceBytes len).getD i 0 = if s.argPresent = true ∧ i < min len s.argLen then s.arg.read i else 0 := by
  unfold State.sourceBytes
  cases s.argPresent with
  | true =>
    rw [if_pos rfl, getD_load, Nat.zero_add]
    simp only [true_and]
  | false => simp

/-- Settles O13: the store is filled with the bytes copied, and the Message is sealed. -/
theorem constructResult : Obligations.ConstructResult := by
  intro s hdr lenIn dev grp log drv fn ckSeed hf
  refine ⟨_, exec_of_commandEnds hf (.construct ..), rfl, toNat_clampLength lenIn, rfl, rfl, rfl, rfl, rfl,
    fun i => ?_, toNat_ck_of_sealed rfl⟩
  have hl := (length_sourceBytes_le s (clampLength lenIn)).trans (clampLength_le lenIn)
  refine (payAt_of_filledStore ?_ hl i).trans (getD_sourceBytes s _ i)
  rfl

/-- The bytes CONSTRUCT copies depend on the bytes below the copy count of a present argument alone (R77, R102). -/
theorem sourceBytes_congr {s s' : State} {len : Nat} (hp : s'.argPresent = s.argPresent)
    (h : s.argPresent = true →
      s'.argLen = s.argLen ∧ ∀ a, a < min len s.argLen → s'.arg.read a = s.arg.read a) :
    s'.sourceBytes len = s.sourceBytes len := by
  unfold State.sourceBytes
  rw [hp]
  split
  · next hpresent =>
    obtain ⟨hlen, hreads⟩ := h hpresent
    rw [hlen]
    exact load_congr fun i hi => by simpa using hreads i hi
  · rfl

/-- Settles O14: the Message built is a function of the operands but the seed, and of the bytes copied. -/
theorem constructReadsOnlyItsOperands : Obligations.ConstructReadsOnlyItsOperands := by
  intro s s' hdr lenIn dev grp log drv fn k k' t t' hp harg ht ht'
  have hsrc : s'.sourceBytes (clampLength lenIn) = s.sourceBytes (clampLength lenIn) := sourceBytes_congr hp harg
  obtain ⟨-, hend⟩ := exec_cases rfl ht
  obtain ⟨-, hend'⟩ := exec_cases rfl ht'
  cases hend
  cases hend'
  rw [complete_m, complete_m, hsrc]

/-- Settles O15: the store is filled with the first bytes of the argument, and the Message is sealed. -/
theorem setPayloadTextResult : Obligations.SetPayloadTextResult := by
  intro s hf
  refine ⟨_, exec_of_commandEnds hf .setPayloadText, rfl, toNat_clampLength s.argLen, rfl, rfl, rfl, rfl, rfl,
    fun i => ?_, toNat_ck_of_sealed rfl⟩
  have hl : (s.arg.load 0 (clampLength s.argLen)).length ≤ 255 := (length_load ..).trans_le (clampLength_le _)
  refine (payAt_of_filledStore ?_ hl i).trans ?_
  · rfl
  · rw [getD_load, clampLength_eq, Nat.zero_add]

/-- The payload store below index `n` is overwritten, with zero where the bytes run out (R105). -/
theorem payAt_overwrittenStore_below (m : Message) {n i : Nat} (bs : List Byte) (hi : i < n) (hn : n ≤ 255) :
    Message.payAt { m with pay := overwrittenStore m.pay n bs } i = bs.getD i 0 := by
  have h : i < 255 := by omega
  rw [payAt_eq _ h]
  exact (getElem_overwrittenStore m.pay n bs i h).trans (if_pos hi)

/-- Settles O16: the store is overwritten below LEN and kept from LEN on, and the Message is sealed. -/
theorem setPayloadHexResult : Obligations.SetPayloadHexResult := by
  intro s bs hf parsed
  refine ⟨_, exec_of_commandEnds hf (.setPayloadHex bs parsed), ?_⟩
  simp only [seal_hdr, seal_len, seal_dev, seal_grp, seal_log, seal_drv, seal_fn, seal_payAt, true_and]
  refine ⟨fun i => ?_, toNat_ck_of_sealed rfl⟩
  split
  · next hi => exact payAt_overwrittenStore_below s.m bs hi (Nat.le_of_lt_succ (len_lt s.m))
  · next hi => exact payAt_overwrittenStore_above s.m bs (Nat.le_of_not_lt hi)

/-- Settles O21: CHECKSUM seals M, which is no change where M holds its checksum already. -/
theorem checksumCommandResult : Obligations.ChecksumCommandResult := by
  intro s hf
  refine ⟨s.m.sum, s.m.sum.setWidth 9, none, exec_of_commandEnds hf .checksum, toNat_sum s.m, ?_, fun h => ?_⟩
  · rw [BitVec.toNat_setWidth_of_le (by decide), toNat_sum]
  · rw [← h]

/-- Settles O22: nine bits hold the wire size, which is the length of the frame. -/
theorem wireSizeCommandResult : Obligations.WireSizeCommandResult := by
  intro s hf
  have hr : (BitVec.ofNat 9 s.m.wireSize).toNat = 8 + s.m.len.toNat := (toNat_wireSize s.m).trans (wireSize_eq s.m)
  have := len_lt s.m
  exact ⟨BitVec.ofNat 9 s.m.wireSize, none, exec_of_commandEnds hf .wireSize, hr, by omega, by omega,
    (length_frame s.m).trans (toNat_wireSize s.m).symm⟩

/-- The default constant of this instance, field by field (R44). -/
theorem default_eq :
    Message.default Config.deviceClass =
      { hdr := 0xAA, len := 0, dev := 0xC8, grp := 0x91, log := 0xC8, drv := 0x01, fn := 0x00
        pay := Vector.replicate 255 0, ck := 0x22 } := rfl

/-- Settles O12: LOAD_DEFAULT loads the default constant. -/
theorem loadDefaultResult : Obligations.LoadDefaultResult := by
  intro s hf
  rw [exec_of_commandEnds hf .loadDefault, default_eq]
  rfl

end Sys2Proof.Proofs

/-! ### What ENCODE leaves in the transmit buffer -/

namespace Sys2Proof.Proofs

open Sys2Proof.Machine Sys2Proof.Laws

/-- Below its length a stored frame is what the buffer reads. -/
theorem read_store_frame_inside {mem : Memory} (hw : mem.wf = true) (m : Message) {i : Nat} (hi : i < 8 + m.len.toNat) :
    (mem.store 0 m.frame).read i = m.frame.getD i 0 :=
  (read_store_frame hw m i).trans (if_pos hi)

theorem read_store_frame_len {mem : Memory} (hw : mem.wf = true) (m : Message) :
    (mem.store 0 m.frame).read 1 = m.len :=
  read_store_frame_inside hw m (by omega)

theorem read_store_frame_checksum {mem : Memory} (hw : mem.wf = true) (m : Message) :
    (mem.store 0 m.frame).read (7 + m.len.toNat) = m.ck :=
  (read_store_frame_inside hw m (by omega)).trans (getD_frame_checksum m)

/-- TXLEN as ENCODE sets it, without wrap (R72, R130). -/
theorem toNat_encodedLength (m : Message) : (BitVec.ofNat 9 m.wireSize).toNat = 8 + m.len.toNat :=
  (toNat_wireSize m).trans (wireSize_eq m)

/-- Settles O23: the frame of M is stored from offset 0, and its bytes are those of M by the offsets of R71. -/
theorem encodeResult : Obligations.EncodeResult := by
  intro s hf hw
  have inside {i : Nat} (hi : i < 8 + s.m.len.toNat) := read_store_frame_inside hw s.m hi
  obtain ⟨h0, h1, h2, h3, h4, h5, h6⟩ := getD_frame_fixed s.m
  exact ⟨_, _, exec_of_commandEnds hf .encode, toNat_encodedLength s.m, (inside (by omega)).trans h0,
    read_store_frame_len hw s.m, (inside (by omega)).trans h2, (inside (by omega)).trans h3,
    (inside (by omega)).trans h4, (inside (by omega)).trans h5, (inside (by omega)).trans h6,
    fun i hi => (inside (by omega)).trans (getD_frame_payload s.m hi), read_store_frame_checksum hw s.m,
    fun a ha => (read_store_frame hw s.m a).trans (if_neg (Nat.not_lt.2 ha))⟩

/-- A loaded run without its first and last byte is the run between them. -/
theorem dropLast_drop_one_load (mem : Memory) (off n : Nat) :
    ((mem.load off (n + 2)).drop 1).dropLast = mem.load (off + 1) n := by
  have hdrop : (mem.load off (n + 2)).drop 1 = mem.load (off + 1) n ++ mem.load (off + 1 + n) 1 :=
    load_add mem (off + 1) n 1
  rw [hdrop]
  exact List.dropLast_concat

/-- The bytes of a stored frame at offsets 1 to 6 + LEN add up to the exact sum of its Message (R74, R100). -/
theorem sum_read_store_frame {mem : Memory} (hw : mem.wf = true) (m : Message) :
    ∑ a ∈ Finset.Ico 1 (7 + m.len.toNat), ((mem.store 0 m.frame).read a).toNat = m.exactSum := by
  have hframe : (mem.store 0 m.frame).load 0 (6 + m.len.toNat + 2) = m.frame := by
    have hlen : m.frame.length = 6 + m.len.toNat + 2 := by
      rw [length_frame, wireSize_eq]
      omega
    rw [← hlen]
    exact load_store hw 0 m.frame
  calc ∑ a ∈ Finset.Ico 1 (7 + m.len.toNat), ((mem.store 0 m.frame).read a).toNat
    _ = byteSum ((mem.store 0 m.frame).load 1 (6 + m.len.toNat)) := by
      rw [byteSum_load, ← Nat.add_assoc]
    _ = byteSum (m.frame.drop 1).dropLast := by rw [← dropLast_drop_one_load _ 0, hframe]
    _ = m.exactSum := by rw [dropLast_drop_one_frame, byteSum_eq_exactSum]

/-- Settles O24: TXB[1] is LEN, WIRESIZE answers with the same wire size, and the last byte is M.CK, which is the exact
sum modulo 256 where M held its checksum. -/
theorem encodedFramePassesTheChecks : Obligations.EncodedFramePassesTheChecks := by
  intro s t hw h
  obtain ⟨hf, hend⟩ := exec_cases rfl h
  cases hend
  have hlast : (BitVec.ofNat 9 s.m.wireSize).toNat - 1 = 7 + s.m.len.toNat := by
    rw [toNat_encodedLength]
    omega
  simp only [complete_txb, complete_txLen]
  refine ⟨?_, ⟨_, exec_of_commandEnds hf .wireSize, rfl⟩, fun hck => ?_⟩
  · rw [toNat_encodedLength, read_store_frame_len hw]
  · rw [hlast, read_store_frame_checksum hw, sum_read_store_frame hw]
    exact toNat_ck_of_sealed hck

/-- Settles O25: a frame, stored in an empty buffer, gives back the one Message with a zero tail it is the frame of. -/
theorem frameIsInjective : Obligations.FrameIsInjective := by
  intro a b ha hb h
  calc a
    _ = receivedMessage (Memory.store [] 0 a.frame) := (receivedMessage_store_frame wf_nil ha).symm
    _ = receivedMessage (Memory.store [] 0 b.frame) := by rw [h]
    _ = b := receivedMessage_store_frame wf_nil hb

end Sys2Proof.Proofs

/-! ### The errors no command ends in -/

namespace Sys2Proof.Proofs

open Sys2Proof.Machine Sys2Proof.Laws

/-- However a command ends, STATUS is neither `OutOfBounds` nor `BufferOverflow`: the validation of DECODE and the
parsing of SET_PAYLOAD_HEX are all that fail, with other errors (R134, R149). -/
theorem commandEnds_status_reachable {i : Instr} {s t : State} (h : CommandEnds s i t) :
    t.status ≠ ErrorKind.outOfBounds.code ∧ t.status ≠ ErrorKind.bufferOverflow.code := by
  cases h with
  | malformedHex => rw [takeError_status]; decide
  | rejected k invalid =>
    rw [takeError_status]
    obtain rfl | rfl | rfl | rfl := validateFrame_error invalid <;> decide
  | _ => exact statusOk_reachable

/-- Settles O29: STATUS by the ways a command can end, and FATAL, which was 0, is kept. -/
theorem unreachableErrors : Obligations.UnreachableErrors := by
  intro i s t hc h
  obtain ⟨hf, hend⟩ := exec_cases hc h
  obtain ⟨hbounds, hoverflow⟩ := commandEnds_status_reachable hend
  exact ⟨hbounds, hoverflow, (exec_keeps_fatal h).trans hf⟩

end Sys2Proof.Proofs

/-! ### The outcome of DECODE -/

namespace Sys2Proof.Proofs

open Sys2Proof.Machine Sys2Proof.Laws

/-! The validation of `validateFrame_eq` with the threshold of R7, one lemma per row of the table of R150. -/

theorem validateFrame_tooShort (rx : Memory) {rxLen : Nat} (hshort : rxLen < 8) :
    validateFrame Config.minFrameLen rx rxLen = .error .tooShort :=
  (validateFrame_eq 8 rx rxLen).trans (if_pos hshort)

theorem validateFrame_badHeader {rx : Memory} {rxLen : Nat} (hmin : ¬ rxLen < 8) (h0 : rx.read 0 ≠ 0xAA#8) :
    validateFrame Config.minFrameLen rx rxLen = .error .badHeader :=
  (validateFrame_eq 8 rx rxLen).trans <| (if_neg hmin).trans (if_pos h0)

theorem validateFrame_lengthMismatch {rx : Memory} {rxLen : Nat} (hmin : ¬ rxLen < 8) (h0 : rx.read 0 = 0xAA#8)
    (hlen : rxLen ≠ 8 + (rx.read 1).toNat) :
    validateFrame Config.minFrameLen rx rxLen = .error .lengthMismatch :=
  (validateFrame_eq 8 rx rxLen).trans <| (if_neg hmin).trans <| (if_neg (not_not.2 h0)).trans (if_pos hlen)

/-- The received checksum against the sum of the bytes received at offsets 1 to RXLEN - 2 (R74, R146). -/
theorem receivedMessage_sealed_iff {rx : Memory} {rxLen : Nat} (hlen : rxLen = 8 + (rx.read 1).toNat) :
    (receivedMessage rx).ck = (receivedMessage rx).sum ↔
      (rx.read (rxLen - 1)).toNat = (∑ a ∈ Finset.Ico 1 (rxLen - 1), (rx.read a).toNat) % 256 := by
  have hlast : rxLen - 1 = 1 + (6 + (rx.read 1).toNat) := by omega
  rw [receivedMessage_sum, ← BitVec.toNat_inj, BitVec.toNat_ofNat, byteSum_load, hlast, ← Nat.add_assoc 1 6]
  rfl

/-- Where header and length are right, the checksum decides: a right length is at least 8 (R146, R150). -/
theorem validateFrame_of_rightLength {rx : Memory} {rxLen : Nat} (h0 : rx.read 0 = 0xAA#8)
    (hlen : rxLen = 8 + (rx.read 1).toNat) :
    validateFrame Config.minFrameLen rx rxLen =
      if (receivedMessage rx).ck ≠ (receivedMessage rx).sum then .error .checksumMismatch
      else .ok (receivedMessage rx) :=
  (validateFrame_eq 8 rx rxLen).trans <| (if_neg (by omega)).trans <| (if_neg (not_not.2 h0)).trans <|
    if_neg (not_not.2 hlen)

theorem validateFrame_checksumMismatch {rx : Memory} {rxLen : Nat} (h0 : rx.read 0 = 0xAA#8)
    (hlen : rxLen = 8 + (rx.read 1).toNat)
    (hck : (rx.read (rxLen - 1)).toNat ≠ (∑ a ∈ Finset.Ico 1 (rxLen - 1), (rx.read a).toNat) % 256) :
    validateFrame Config.minFrameLen rx rxLen = .error .checksumMismatch :=
  (validateFrame_of_rightLength h0 hlen).trans (if_pos (mt (receivedMessage_sealed_iff hlen).1 hck))

theorem validateFrame_legal {rx : Memory} {rxLen : Nat} (h0 : rx.read 0 = 0xAA#8)
    (hlen : rxLen = 8 + (rx.read 1).toNat)
    (hck : (rx.read (rxLen - 1)).toNat = (∑ a ∈ Finset.Ico 1 (rxLen - 1), (rx.read a).toNat) % 256) :
    validateFrame Config.minFrameLen rx rxLen = .ok (receivedMessage rx) :=
  (validateFrame_of_rightLength h0 hlen).trans (if_neg (not_not.2 ((receivedMessage_sealed_iff hlen).2 hck)))

/-- The store of the Message received is zero above the payload (R147, I2 of R26). -/
theorem receivedMessage_tailZero (rx : Memory) : (receivedMessage rx).TailZero :=
  tailZero_of_filledStore rfl (length_load ..).le

/-- Settles O26: the rows of R150 in their order, each with the state DECODE ends in. -/
theorem decodeOutcome : Obligations.DecodeOutcome := by
  intro s hf
  by_cases hshort : s.rxLen < 8
  · simp only [if_pos hshort]
    exact ⟨_, execDecode_rejected hf (validateFrame_tooShort _ hshort), rfl, rfl⟩
  by_cases h0 : s.rxb.read 0 ≠ 0xAA#8
  · simp only [if_neg hshort, if_pos h0]
    exact ⟨_, execDecode_rejected hf (validateFrame_badHeader hshort h0), rfl, rfl⟩
  by_cases hlen : s.rxLen ≠ 8 + (s.rxb.read 1).toNat
  · simp only [if_neg hshort, if_neg h0, if_pos hlen]
    exact ⟨_, execDecode_rejected hf (validateFrame_lengthMismatch hshort (not_not.1 h0) hlen), rfl, rfl⟩
  simp only [if_neg hshort, if_neg h0, if_neg hlen]
  rw [not_not] at h0 hlen
  by_cases hck :
      (s.rxb.read (s.rxLen - 1)).toNat ≠ (∑ a ∈ Finset.Ico 1 (s.rxLen - 1), (s.rxb.read a).toNat) % 256
  · simp only [if_pos hck]
    exact ⟨_, execDecode_rejected hf (validateFrame_checksumMismatch h0 hlen hck), rfl, rfl⟩
  · simp only [if_neg hck]
    refine ⟨_, execDecode_ok hf (validateFrame_legal h0 hlen (not_not.1 hck)), rfl, ?_, receivedMessage_tailZero s.rxb⟩
    rw [State.rxBytes, hlen]
    exact receivedMessage_frame s.rxb

/-- Settles O27: the Message committed is the one received, and the checks that passed make it valid. -/
theorem decodeCommitsLegalFrame : Obligations.DecodeCommitsLegalFrame := by
  intro s hf h0 hlen hck
  have hlast : s.rxLen - 1 = 7 + (s.rxb.read 1).toNat := by omega
  refine ⟨receivedMessage s.rxb, execDecode_ok hf (validateFrame_legal h0 hlen hck), rfl, rfl, rfl, rfl, rfl, rfl, rfl,
    receivedMessage_payAt s.rxb, ?_, h0, (receivedMessage_sealed_iff hlen).2 hck, receivedMessage_tailZero s.rxb⟩
  rw [hlast]
  rfl

/-- Settles O43: the frame of the Message received is what was received, and ENCODE writes it. -/
theorem decodeThenEncodeRoundTrip : Obligations.DecodeThenEncodeRoundTrip := by
  intro s t hw hdecode hok
  obtain ⟨hf, hend⟩ := exec_cases rfl hdecode
  cases hend with
  | rejected k => exact absurd hok (code_ne_zero k)
  | decode valid =>
    obtain ⟨-, -, -, hlen, -⟩ := validateFrame_ok valid
    obtain ⟨u, hencode, hframe, -⟩ :=
      exec_encode_frame (s := State.complete { s with m := receivedMessage s.rxb }) hf hw
    refine ⟨u, hencode, ?_, ?_⟩
    · obtain ⟨-, hend⟩ := exec_cases rfl hencode
      cases hend
      rfl
    · rw [hframe, State.rxBytes, hlen]
      exact receivedMessage_frame s.rxb

end Sys2Proof.Proofs

/-! ### Corrupted, truncated and extended frames -/

namespace Sys2Proof.Proofs

open Sys2Proof.Machine Sys2Proof.Laws

/-- A DECODE whose validation fails leaves M, and STATUS names the error (R140, R172). -/
theorem exec_decode_invalid {s : State} {k : ErrorKind} (hf : s.fatal = false)
    (hv : validateFrame Config.minFrameLen s.rxb s.rxLen = .error k) :
    ∃ t, exec .decode s = .next t ∧ t.m = s.m ∧ t.status = k.code :=
  ⟨_, execDecode_rejected hf hv, rfl, rfl⟩

/-- Received bytes are read back from RXB by their offsets. -/
theorem read_store_zero {mem : Memory} (hw : mem.wf = true) {bs : List Byte} {i : Nat} (hi : i < bs.length) :
    (mem.store 0 bs).read i = bs.getD i 0 := by
  rw [read_store hw, if_pos (by omega), Nat.sub_zero]

/-- Bytes with the header in front whose count is not the one their second byte claims (R144). -/
theorem exec_decode_received_wrongLength {s : State} {bs : List Byte} (hf : s.fatal = false) (hw : s.rxb.wf = true)
    (hmin : 8 ≤ bs.length) (h0 : bs.getD 0 0 = 0xAA#8) (hlen : bs.length ≠ 8 + (bs.getD 1 0).toNat) :
    ∃ t, exec .decode (s.placeReceived bs) = .next t ∧ t.m = s.m ∧ t.status = 3 := by
  refine exec_decode_invalid (s := s.placeReceived bs) (k := .lengthMismatch) hf ?_
  refine validateFrame_lengthMismatch (Nat.not_lt.2 hmin) ((read_store_zero hw (by omega)).trans h0) ?_
  rwa [placeReceived_rxb, read_store_zero hw (by omega)]

/-- Storing a sequence with one byte changed is storing the sequence and then that byte. -/
theorem read_store_set {mem : Memory} (hw : mem.wf = true) {bs : List Byte} {k : Nat} (hk : k < bs.length) (b : Byte)
    (i : Nat) : (mem.store 0 (bs.set k b)).read i = if i = k then b else (mem.store 0 bs).read i := by
  rw [read_store hw, read_store hw, List.length_set]
  by_cases hik : i = k
  · subst hik
    rw [if_pos (by omega), if_pos rfl]
    simp [List.getD_eq_getElem?_getD, hk]
  · rw [if_neg hik]
    simp [List.getD_eq_getElem?_getD, List.getElem?_set_ne (Ne.symm hik)]

/-- A sum modulo 256 no longer checks when exactly one byte, of those added up or the sum itself, is another (R153):
two bytes that differ are not congruent modulo 256. -/
theorem checksum_detects_change {rx rx' : Memory} {n k : Nat} (hk1 : 1 ≤ k) (hkn : k ≤ n)
    (hne : rx'.read k ≠ rx.read k) (hrest : ∀ a, a ≠ k → rx'.read a = rx.read a)
    (hck : (rx.read n).toNat = (∑ a ∈ Finset.Ico 1 n, (rx.read a).toNat) % 256) :
    (rx'.read n).toNat ≠ (∑ a ∈ Finset.Ico 1 n, (rx'.read a).toNat) % 256 := by
  have hne' : (rx'.read k).toNat ≠ (rx.read k).toNat := fun h => hne (BitVec.eq_of_toNat_eq h)
  obtain rfl | hlt := hkn.eq_or_lt
  · have hsum : ∑ a ∈ Finset.Ico 1 k, (rx'.read a).toNat = ∑ a ∈ Finset.Ico 1 k, (rx.read a).toNat :=
      Finset.sum_congr rfl fun a ha => by rw [hrest a (Finset.mem_Ico.1 ha).2.ne]
    rwa [hsum, ← hck]
  · have hmem : k ∈ Finset.Ico 1 n := Finset.mem_Ico.2 ⟨hk1, hlt⟩
    have hothers : ∑ a ∈ (Finset.Ico 1 n).erase k, (rx'.read a).toNat =
        ∑ a ∈ (Finset.Ico 1 n).erase k, (rx.read a).toNat :=
      Finset.sum_congr rfl fun a ha => by rw [hrest a (Finset.ne_of_mem_erase ha)]
    rw [hrest n hlt.ne', hck, ← Finset.add_sum_erase _ _ hmem, ← Finset.add_sum_erase _ _ hmem, hothers]
    have := (rx'.read k).isLt
    have := (rx.read k).isLt
    omega

/-- The stored frame of a Message that holds its checksum passes the check of its last byte (R74, R133). -/
theorem read_store_frame_last {mem : Memory} (hw : mem.wf = true) {m : Message} (hck : m.ck = m.sum) :
    ((mem.store 0 m.frame).read (7 + m.len.toNat)).toNat =
      (∑ a ∈ Finset.Ico 1 (7 + m.len.toNat), ((mem.store 0 m.frame).read a).toNat) % 256 := by
  rw [read_store_frame_checksum hw, sum_read_store_frame hw, toNat_ck_of_sealed hck]

/-- A frame with one byte changed behind the length byte fails the check of its last byte, the one test left (R153). -/
theorem validateFrame_store_frame_set {mem : Memory} (hw : mem.wf = true) {m : Message} (hv : m.Valid) {k : Nat}
    (hk : k < m.frame.length) (hk2 : 2 ≤ k) {b : Byte} (hb : b ≠ m.frame.getD k 0) :
    validateFrame Config.minFrameLen (mem.store 0 (m.frame.set k b)) (8 + m.len.toNat) =
      .error .checksumMismatch := by
  obtain ⟨hhdr, hck, -⟩ := hv
  have hread := read_store_set hw hk b
  have hkn : k < 8 + m.len.toNat := by rwa [length_frame, wireSize_eq] at hk
  have kept : ∀ a, a ≠ k → (mem.store 0 (m.frame.set k b)).read a = (mem.store 0 m.frame).read a :=
    fun a ha => (hread a).trans (if_neg ha)
  have h0 : (mem.store 0 (m.frame.set k b)).read 0 = 0xAA#8 :=
    ((kept 0 (by omega)).trans (read_store_frame_inside hw m (by omega))).trans hhdr
  have h1 : (mem.store 0 (m.frame.set k b)).read 1 = m.len :=
    (kept 1 (by omega)).trans (read_store_frame_len hw m)
  have changed : (mem.store 0 (m.frame.set k b)).read k ≠ (mem.store 0 m.frame).read k := by
    rwa [hread, if_pos rfl, read_store_frame_inside hw m hkn]
  refine validateFrame_checksumMismatch h0 (by rw [h1]) ?_
  rw [show 8 + m.len.toNat - 1 = 7 + m.len.toNat by omega]
  exact checksum_detects_change (by omega) (by omega) changed kept (read_store_frame_last hw hck)

/-- Settles O44: by the offset changed, the header, the length byte, or any other. -/
theorem singleByteCorruptionDetected : Obligations.SingleByteCorruptionDetected := by
  intro s m k b hf hw hv hk hb
  have hlen : (m.frame.set k b).length = 8 + m.len.toNat := by
    rw [List.length_set, length_frame, wireSize_eq]
  by_cases hk0 : k = 0
  · subst hk0
    refine exec_decode_invalid (s := s.placeReceived (m.frame.set 0 b)) (k := .badHeader) hf ?_
    refine validateFrame_badHeader (by rw [placeReceived_rxLen, hlen]; omega) ?_
    rw [placeReceived_rxb, read_store_set hw hk, if_pos rfl, ← hv.1]
    exact hb
  by_cases hk1 : k = 1
  · subst hk1
    refine exec_decode_received_wrongLength hf hw (by omega) hv.1 ?_
    rw [hlen]
    exact fun h => hb (BitVec.eq_of_toNat_eq (Nat.add_left_cancel h).symm)
  · rw [if_neg hk0, if_neg hk1]
    refine exec_decode_invalid (s := s.placeReceived (m.frame.set k b)) (k := .checksumMismatch) hf ?_
    rw [placeReceived_rxb, placeReceived_rxLen, hlen]
    exact validateFrame_store_frame_set hw hv hk (by omega) hb

/-- Settles O45: header and length byte are those of the frame, and the count of bytes is another. -/
theorem truncatedAndExtendedFramesRejected : Obligations.TruncatedAndExtendedFramesRejected := by
  intro s m hf hw hv
  have hframe : m.frame.length = 8 + m.len.toNat := (length_frame m).trans (wireSize_eq m)
  refine ⟨fun p hp => ?_, fun x xs => ?_⟩
  · have hlen : (m.frame.take p).length = p := List.length_take_of_le hp.le
    by_cases hshort : p < 8
    · rw [if_pos hshort]
      refine exec_decode_invalid (s := s.placeReceived (m.frame.take p)) (k := .tooShort) hf ?_
      exact validateFrame_tooShort _ (hlen.trans_lt hshort)
    · rw [if_neg hshort]
      obtain ⟨q, rfl⟩ := Nat.exists_eq_add_of_le' (Nat.le_of_not_lt hshort)
      refine exec_decode_received_wrongLength hf hw (by omega) hv.1 ?_
      rw [hlen]
      exact (hframe ▸ hp).ne
  · have hlen : (m.frame ++ x :: xs).length = 8 + m.len.toNat + (xs.length + 1) := by
      rw [List.length_append, hframe, List.length_cons]
    refine exec_decode_received_wrongLength hf hw (by omega) hv.1 ?_
    rw [hlen]
    exact (Nat.lt_add_of_pos_right xs.length.succ_pos).ne'

end Sys2Proof.Proofs

/-! ### Errors and the reject event -/

namespace Sys2Proof.Proofs

open Sys2Proof.Machine Sys2Proof.Laws

/-- A command completes with no error and no event, or it is SET_PAYLOAD_HEX on a malformed argument, or DECODE on
bytes that do not validate: nothing else takes an error (R161, R167, R172). -/
theorem commandEnds_completes_or_takesError {i : Instr} {s t : State} (h : CommandEnds s i t) :
    (t.status = statusOk ∧ t.event = none ∧ (i = .setPayloadHex → parseHex s.argBytes ≠ none)) ∨
    (i = .setPayloadHex ∧ parseHex s.argBytes = none ∧ t = s.takeError .invalidHexToken) ∨
    (i = .decode ∧ ∃ k, validateFrame Config.minFrameLen s.rxb s.rxLen = .error k ∧ t = s.takeError k) := by
  cases h with
  | setPayloadHex bs parsed => exact .inl ⟨rfl, rfl, fun _ => Option.ne_none_iff_exists'.2 ⟨bs, parsed⟩⟩
  | malformedHex malformed => exact .inr (.inl ⟨rfl, malformed, rfl⟩)
  | rejected k invalid => exact .inr (.inr ⟨rfl, k, invalid, rfl⟩)
  | _ => exact .inl ⟨rfl, rfl, nofun⟩

/-- An error of the validation is not the one of SET_PAYLOAD_HEX (R148, R167). -/
theorem validateFrame_error_code_ne_invalidHexToken {minLen : Nat} {rx : Memory} {rxLen : Nat} {k : ErrorKind}
    (h : validateFrame minLen rx rxLen = .error k) : k.code ≠ ErrorKind.invalidHexToken.code := by
  obtain rfl | rfl | rfl | rfl := validateFrame_error h <;> decide

/-- Settles O17: of the two commands that take an error, only SET_PAYLOAD_HEX takes this one, and its argument fails to
parse by a malformed token. -/
theorem invalidHexTokenCause : Obligations.InvalidHexTokenCause := by
  intro i s t hc h
  obtain ⟨-, hend⟩ := exec_cases hc h
  have malformed_iff : parseHex s.argBytes = none ↔ ∃ tok ∈ tokens s.argBytes, tokenValue? tok = none :=
    tokenValues?_eq_none_iff (tokens s.argBytes)
  rw [← malformed_iff]
  obtain ⟨hok, -, parses⟩ | ⟨rfl, malformed, rfl⟩ | ⟨rfl, k, invalid, rfl⟩ := commandEnds_completes_or_takesError hend
  · have hne : t.status ≠ 6 := hok ▸ by decide
    exact ⟨⟨fun h6 => absurd h6 hne, fun ⟨hi, malformed⟩ => absurd malformed (parses hi)⟩, fun h6 => absurd h6 hne⟩
  · exact ⟨⟨fun _ => ⟨rfl, malformed⟩, fun _ => rfl⟩, fun _ => ⟨_, takeError_of_recoverable rfl s⟩⟩
  · have hne : (s.takeError k).status ≠ 6 := validateFrame_error_code_ne_invalidHexToken invalid
    exact ⟨⟨fun h6 => absurd h6 hne, nofun⟩, fun h6 => absurd h6 hne⟩

/-- Settles O28: a DECODE that fails takes a recoverable error that rejects a frame; the other endings have no event. -/
theorem rejectEventExactlyOnFailedDecode : Obligations.RejectEventExactlyOnFailedDecode := by
  intro i s t hc h
  obtain ⟨-, hend⟩ := exec_cases hc h
  obtain ⟨hok, hevent, -⟩ | ⟨rfl, -, rfl⟩ | ⟨rfl, k, invalid, rfl⟩ := commandEnds_completes_or_takesError hend
  · exact ⟨fun ⟨_, hfailed⟩ => absurd hok hfailed, fun _ => hevent⟩
  · exact ⟨nofun, fun _ => rfl⟩
  · obtain ⟨hrejects, hrecoverable, -⟩ := validateFrame_error_kind invalid
    rw [takeError_of_recoverable hrecoverable, if_pos hrejects]
    exact ⟨fun _ => ⟨k, rfl, hrejects, rfl⟩, fun hnot => absurd ⟨rfl, code_ne_zero k⟩ hnot⟩

end Sys2Proof.Proofs

/-! ### The block straight after reset -/

namespace Sys2Proof.Proofs

open Sys2Proof.Machine Sys2Proof.Laws

/-- The host's reset move is taken off and the block reset, whatever FATAL is (R190). -/
theorem step_reset {s : State} {rest : List HostMove} (hh : s.host = .reset :: rest) :
    step s = .next (State.resetBlock { s with host := rest }) := by
  simp only [step, State.fetch, hh]

/-- Settles O38: M is the default constant, and every other field is the reset state's or the old one as `resetBlock` says. -/
theorem resetMoveResult : Obligations.ResetMoveResult :=
  fun _ _ hh => ⟨_, step_reset hh, default_eq, rfl, rfl, rfl, rfl, rfl, rfl, rfl, rfl, rfl, rfl, rfl⟩

/-- The sum of the default constant of this instance is the checksum it holds (R44, R193). -/
theorem default_sum : (Message.default Config.deviceClass).sum = 0x22 := by
  rw [← default_sealed, default_eq]

/-- The frame of the default constant of this instance (R193). -/
theorem default_frame :
    (Message.default Config.deviceClass).frame = [0xAA, 0x00, 0xC8, 0x91, 0xC8, 0x01, 0x00, 0x22] := by
  rw [default_eq]
  rfl

/-- Settles O39: LOAD_DEFAULT loads the default constant, and CHECKSUM and ENCODE answer with its sum and its frame. -/
theorem resetBlockIsReady : Obligations.ResetBlockIsReady := by
  refine ⟨fun s t h => ?_, ⟨_, exec_of_commandEnds rfl .checksum, ?_⟩, ?_⟩
  · obtain ⟨-, hend⟩ := exec_cases rfl h
    cases hend
    rfl
  · exact congrArg (BitVec.setWidth 9) default_sum
  · obtain ⟨t, ht, hframe, -⟩ := exec_encode_frame (s := State.reset) rfl wf_nil
    exact ⟨t, ht, hframe.trans default_frame⟩

end Sys2Proof.Proofs
